-- ==== Sys2Proof/Word.lean ====
section
/-! DEFINITION. The word types of the block (00_scope.md section 4): bytes, 16-bit words and text. -/

namespace Sys2Proof

/-- A byte, 0 to 255; bit 0 is its least significant bit (00_scope.md section 4). -/
abbrev Byte := BitVec 8

/-- A 16-bit word: the cached length, a network address, a channel mask, a sample (R89). -/
abbrev Half := BitVec 16

/-- A character string, for the textual form of an address (R152, R153) and for the stimulus script (R72). -/
abbrev Text := List Char

end Sys2Proof
end

