-- ==== Sys2Proof/Config.lean ====
section
/-! DEFINITION. The implementation parameters of R6 with their defaults, and the one free value of the model. -/

namespace Sys2Proof

/-- What a declared length of 0 does (R6, R107). -/
inductive ZeroLenPolicy where
  | fault
  | literal
deriving DecidableEq, Repr

/-- The parameters of R6 other than `mode`. R22 makes them inputs of the step relation; `State` carries them in a field that
no operation writes, so that every claim ranges over all their values (notes/assumptions/1.md). -/
structure Config where
  /-- `ACC_CAP`: accumulator capacity in bytes (R38). -/
  accCap : Nat
  /-- `IDLE_DROP`: a non-delimiter byte arriving with an empty accumulator is discarded (R105). -/
  idleDrop : Bool
  /-- `SOF_CLEARS_N`: a start delimiter clears the cached length (R101). -/
  sofClearsN : Bool
  /-- `ACC_CHECK_REDECODE`: the check over the accumulator applies the escape decoding again (R87). -/
  accCheckRedecode : Bool
  /-- `ZERO_LEN_POLICY` (R107). -/
  zeroLenPolicy : ZeroLenPolicy
  /-- `RX_TAIL_TRIM`: bytes removed from the end of the Receive Packet data tail (R126). -/
  rxTailTrim : Nat
  /-- `NI_MAX`: maximum node-identifier length (R130). -/
  niMax : Nat
  /-- `TX_RADIUS`, first type-specific fixed byte of a Transmit Request (R156). -/
  txRadius : Byte
  /-- `TX_OPTIONS`, second type-specific fixed byte of a Transmit Request (R156). -/
  txOptions : Byte
  /-- `RAT_OPTIONS`, the type-specific fixed byte of a Remote AT Command Request (R157). -/
  ratOptions : Byte
deriving DecidableEq, Repr

/-- The defaults of R6. -/
def Config.default : Config where
  accCap := 65539
  idleDrop := false
  sofClearsN := true
  accCheckRedecode := false
  zeroLenPolicy := .fault
  rxTailTrim := 0
  niMax := 21
  txRadius := 0
  txOptions := 0
  ratOptions := 0

/-- FREE VALUE (notes/assumptions/2.md). The answer of `AccChecksumValid` outside its precondition `acc_len >= 4` (R87), which
the spec does not state. It has no body; the argument is the counter `State.freeCount`. -/
opaque Config.freeBit : Nat → BitVec 1

end Sys2Proof
end

