-- ==== Sys2Proof/Machine/Packet.lean ====
section
/-! DEFINITION. The value types of the block: addresses (R21), frames (R19), parser results and packets (R20, R121), and the
list of conditions (R170). None of them is state. -/

namespace Sys2Proof

/-- R21: 8 raw bytes, exactly 8 of them, `b0` the byte at the lowest payload offset. -/
structure Address where
  b0 : Byte
  b1 : Byte
  b2 : Byte
  b3 : Byte
  b4 : Byte
  b5 : Byte
  b6 : Byte
  b7 : Byte
deriving DecidableEq, Repr

/-- R19: an immutable frame of logical bytes. The field `len` of R19 is `Frame.len`, computed from the payload, so that the
invariant "length field equals the logical payload byte count" holds of every value of the type (notes/assumptions/3.md). -/
structure Frame where
  /-- A copy of `acc[0]`, not forced to 0x7E (D25). -/
  delim : Byte
  /-- The `len` bytes from the frame-type tag on. -/
  payload : List Byte
  checksum : Byte
  /-- Whether the wire the frame came from was escaped; the payload itself is already unescaped. -/
  escaped : Bool
deriving DecidableEq, Repr

/-- Why a parser answers "no match" (R121, R173). -/
inductive NoMatchReason where
  | tag
  | short
  | shortTail
  | malformed
  | empty
deriving DecidableEq, Repr

/-- R131, the classes of a device-type byte. -/
inductive DeviceClass where
  | coordinator
  | router
  | endDevice
  | undefined
deriving DecidableEq, Repr

/-- R123: the three fields that the packets 0x90, 0x92 and 0x95 share. -/
structure ReceiveBase where
  srcAddr : Address
  netAddr : Half
  rxOptions : Byte
deriving DecidableEq, Repr

/-- The fields of a 0x8B packet (R125). -/
structure ExtTxStatus where
  frameId : Byte
  netAddr : Half
  retryCount : Byte
  deliveryStatus : Byte
  discoveryStatus : Byte
deriving DecidableEq, Repr

/-- The fields of a 0x92 packet (R127): `digital` lists (pin, level), `analog` lists (channel, reading). -/
structure RxIo where
  base : ReceiveBase
  sampleSets : Byte
  digitalMask : Half
  analogMask : Byte
  digital : List (Nat × Bool)
  analog : List (Nat × Half)
deriving DecidableEq, Repr

/-- The fields of a 0x95 packet (R130). -/
structure NodeId where
  base : ReceiveBase
  remoteNetAddr : Half
  remoteAddr : Address
  nodeId : List Byte
  deviceType : Byte
  deviceTypeClass : DeviceClass
deriving DecidableEq, Repr

/-- The fields of a 0x97 packet (R132); the command name is two bytes in payload order. -/
structure RatResponse where
  frameId : Byte
  srcAddr : Address
  netAddr : Half
  atCommand0 : Byte
  atCommand1 : Byte
  commandStatus : Byte
deriving DecidableEq, Repr

/-- R121: every result of the multiplexer and of a parser. -/
inductive ParseResult where
  | modemStatus (status : Byte)
  | extTxStatus (p : ExtTxStatus)
  | rxPacket (base : ReceiveBase) (data : List Byte)
  | rxIo (p : RxIo)
  | nodeId (p : NodeId)
  | ratResponse (p : RatResponse)
  | noMatch (reason : NoMatchReason)
  | skip
  | unrecognised (tag : Byte)
deriving DecidableEq, Repr

/-- The fault codes an operation raises against the block (R170, class `fault`). -/
inductive FaultCode where
  | invalidState
  | zeroLen
  | accOverflow
deriving DecidableEq, Repr

/-- The class of a condition in the table of R170 (`fieldValue` is the entry of code 8). -/
inductive ConditionClass where
  | fault
  | event
  | result
  | fieldValue
  | caller
deriving DecidableEq, Repr

/-- The eleven conditions of R170. -/
inductive Condition where
  | invalidState
  | zeroLength
  | accOverflow
  | checksumMismatch
  | noMatch
  | unrecognised
  | skipped
  | undefinedDeviceType
  | encoderSelfCheck
  | invalidAddress
  | endOfFrames
deriving DecidableEq, Repr

end Sys2Proof
end

