-- ==== Sys2Proof/Syntax.lean ====
section
/-! DEFINITION. The instructions: one constructor per row of spec/opcode_table.json, in the table's order. -/

namespace Sys2Proof

/-- R55 (byte classes), R53 (escape sequences), R56 (frame-type tags) and the named operations of R72. A tag's instruction
carries the frame that stands at the multiplexer; `raw` is a still-escaped wire sequence, `m` an `escapedMode` argument. -/
inductive Instr where
  -- byte classes of the decoder (R55)
  | sof
  | esc
  | escaped (b : Byte)
  | data (b : Byte)
  -- the four escape sequences on the wire (R53)
  | escSeq7E
  | escSeq7D
  | escSeq11
  | escSeq13
  -- frame-type tags of the multiplexer (R56)
  | modemStatus (f : Frame)
  | extTxStatus (f : Frame)
  | rxPacket (f : Frame)
  | rxIo (f : Frame)
  | nodeId (f : Frame)
  | ratResponse (f : Frame)
  | routeRecordSkip (f : Frame)
  | txRequestInbound (f : Frame)
  | ratRequestInbound (f : Frame)
  | otherTag (f : Frame)
  -- primitives (40_primitives.md)
  | be16 (hi lo : Byte)
  | shouldEscape (b : Byte)
  | escapeAppend (m : Bool) (out : List Byte) (b : Byte)
  | unescape (seq : List Byte) (m : Bool)
  | frameTypeOffset (raw : List Byte) (m : Bool)
  | logicalSum (raw : List Byte) (m : Bool)
  | checksum (raw : List Byte) (m : Bool)
  | checksumValid (raw : List Byte) (m : Bool)
  | accChecksumValid
  -- decoder operations and input events (41_decoder.md)
  | append (b : Byte)
  | frameComplete
  | toFrame
  | reset
  | feed (b : Byte)
  | abort
  | endOfStream
  | hardReset (m : Bool)
  -- the multiplexer and its parts (42_parsers.md)
  | parseMux (f : Frame)
  | digitalSamples (mask word : Half)
  | analogSamples (mask : Byte) (bytes : List Byte)
  | deviceTypeClass (d : Byte)
  -- companion functions (43_encoders_address.md)
  | addressFromBytes (s : List Byte)
  | addressFromString (t : Text)
  | addressToString (a : Address)
  | encodeFrame (p : List Byte) (m : Bool)
  | buildTransmit (a : Address) (frameId : Byte) (data : List Byte) (m : Bool)
  | buildRemoteATCommand (a : Address) (frameId cmd0 cmd1 : Byte) (param : List Byte) (m : Bool)
deriving DecidableEq, Repr

end Sys2Proof
end

