-- ==== Sys2Proof/Machine/Operands.lean ====
section
/-! DEFINITION. Operand forms: the reserved bytes, byte classes, 16-bit and address reads, the escape primitives, the
frame-type offset, and the field lists of the 0x92 and 0x95 packets. All are pure functions (R41, R88). -/

namespace Sys2Proof

/-- R19: the declared logical length N of a frame, `len(payload) = len`. -/
def Frame.len (f : Frame) : Nat := f.payload.length

/-- R21: the 8 bytes in payload order. -/
def Address.toBytes (a : Address) : List Byte := [a.b0, a.b1, a.b2, a.b3, a.b4, a.b5, a.b6, a.b7]

/-- R154: the coordinator long address. -/
def Address.coordinator : Address := ⟨0x00#8, 0x00#8, 0x00#8, 0x00#8, 0x00#8, 0x00#8, 0x00#8, 0x00#8⟩

/-- R154: the broadcast long address. -/
def Address.broadcast : Address := ⟨0xFF#8, 0xFF#8, 0xFF#8, 0xFF#8, 0xFF#8, 0xFF#8, 0xFF#8, 0xFF#8⟩

end Sys2Proof

namespace Sys2Proof.Machine

/-! ### Reserved bytes and sentinels (R52, R70, R154) -/

/-- The start delimiter. -/
abbrev sofByte : Byte := 0x7E#8
/-- The escape marker. -/
abbrev escByte : Byte := 0x7D#8
/-- XON. -/
abbrev xonByte : Byte := 0x11#8
/-- XOFF. -/
abbrev xoffByte : Byte := 0x13#8

/-- Network-address sentinel: coordinator. -/
abbrev netCoordinator : Half := 0x0000#16
/-- Network-address sentinel: router broadcast. -/
abbrev netRouterBroadcast : Half := 0xFFFC#16
/-- Network-address sentinel: non-sleepy broadcast. -/
abbrev netNonSleepyBroadcast : Half := 0xFFFD#16
/-- Network-address sentinel: use the long address; the one the encoders send. -/
abbrev netUseLongAddress : Half := 0xFFFE#16
/-- Network-address sentinel: broadcast. -/
abbrev netBroadcast : Half := 0xFFFF#16

/-- R90 (3): `b ^ 0x20`, which both escapes and unescapes. -/
def flipBit5 (b : Byte) : Byte := b ^^^ 0x20#8

/-- R89: `hi * 256 + lo`. -/
def be16 (hi lo : Byte) : Half := BitVec.ofNat 16 (hi.toNat * 256 + lo.toNat)

/-- The high byte of a 16-bit value, `v >> 8` (R50). -/
def hiByte (n : Nat) : Byte := BitVec.ofNat 8 (n / 256)

/-- The low byte of a 16-bit value, `v & 0xFF` (R50). -/
def loByte (n : Nat) : Byte := BitVec.ofNat 8 (n % 256)

/-! ### Reads of a byte sequence (R43). Every caller first checks that the offsets exist (R36). -/

/-- One byte at an offset. -/
def byteAt (p : List Byte) (k : Nat) : Byte := p.getD k 0x00#8

/-- Two bytes at an offset, big-endian (R33). -/
def halfAt (p : List Byte) (k : Nat) : Half := be16 (byteAt p k) (byteAt p (k + 1))

/-- Eight bytes at an offset, in order. -/
def addressAt (p : List Byte) (k : Nat) : Address :=
  ⟨byteAt p k, byteAt p (k + 1), byteAt p (k + 2), byteAt p (k + 3),
    byteAt p (k + 4), byteAt p (k + 5), byteAt p (k + 6), byteAt p (k + 7)⟩

/-! ### Byte classes -/

/-- The four classes of R55. -/
inductive ByteClass where
  | sof
  | esc
  | escaped
  | data
deriving DecidableEq, Repr

/-- R55: the class of a raw byte, in the table's priority order. -/
def byteClass (mode escPending : Bool) (b : Byte) : ByteClass :=
  if b = sofByte then .sof
  else if b = escByte ∧ mode = true ∧ escPending = false then .esc
  else if escPending = true then .escaped
  else .data

/-! ### Escape primitives -/

/-- R80. -/
def shouldEscape (b : Byte) : Bool :=
  b == sofByte || b == escByte || b == xonByte || b == xoffByte

/-- R81: the bytes `EscapeAppend` emits for `b`. -/
def escapeByte (m : Bool) (b : Byte) : List Byte :=
  if m && shouldEscape b then [escByte, flipBit5 b] else [b]

/-- R81: the extended output sequence and whether escaping occurred. -/
def escapeAppend (m : Bool) (out : List Byte) (b : Byte) : List Byte × Bool :=
  (out ++ escapeByte m b, m && shouldEscape b)

/-- `EscapeAppend` of each byte of a sequence in order (R155 step 2). -/
def escapeAll (m : Bool) (p : List Byte) : List Byte := p.flatMap (escapeByte m)

/-- The loop of R82, from a given value of the flag: the logical bytes and the final flag. -/
def unescapeFrom (m : Bool) : Bool → List Byte → List Byte × Bool
  | flag, [] => ([], flag)
  | flag, r :: rs =>
    if m = true ∧ flag = false ∧ r = escByte then unescapeFrom m true rs
    else if flag = true then
      (flipBit5 r :: (unescapeFrom m false rs).1, (unescapeFrom m false rs).2)
    else (r :: (unescapeFrom m flag rs).1, (unescapeFrom m flag rs).2)

/-- R82. -/
def unescape (seq : List Byte) (m : Bool) : List Byte × Bool := unescapeFrom m false seq

/-- R83: the raw index after the length byte that begins at index `i`, its marker skipped in escaped mode. -/
def afterLengthByte (raw : List Byte) (m : Bool) (i : Nat) : Nat :=
  if m = true ∧ raw[i]? = some escByte then i + 2 else i + 1

/-- R83, both length bytes passed. The answer is `none` where the sequence ends before both are there whole: fewer than 3 bytes,
or than 4 or 5 when length bytes are escaped (U5; notes/assumptions/4.md). -/
def frameTypeOffset (raw : List Byte) (m : Bool) : Option Nat :=
  let o := afterLengthByte raw m (afterLengthByte raw m 1)
  if o ≤ raw.length then some o else none

/-! ### Derived fields of packets -/

/-- R128: bit positions 0 to 14, ascending. -/
def digitalSamples (mask word : Half) : List (Nat × Bool) :=
  (List.range 15).filterMap fun k => if mask.getLsbD k then some (k, word.getLsbD k) else none

/-- R127: the analog channels in the order they are checked. -/
abbrev analogChannels : List Nat := [0, 1, 2, 3, 7]

/-- R129: two bytes for each channel whose mask bit is set; `none` where the bytes run out (R127 corner case 6). -/
def analogFrom (mask : Byte) : List Nat → List Byte → Option (List (Nat × Half))
  | [], _ => some []
  | k :: ks, bs =>
    if mask.getLsbD k then
      match bs with
      | hi :: lo :: rest => (analogFrom mask ks rest).map fun l => (k, be16 hi lo) :: l
      | _ => none
    else analogFrom mask ks bs

/-- R129 over the channels of R127. -/
def analogSamples (mask : Byte) (bs : List Byte) : Option (List (Nat × Half)) :=
  analogFrom mask analogChannels bs

/-- R131. -/
def deviceTypeClass (d : Byte) : DeviceClass :=
  if d = 0x00#8 then .coordinator
  else if d = 0x01#8 then .router
  else if d = 0x02#8 then .endDevice
  else .undefined

/-- The loop of R130: how many bytes from here on are identifier characters, at most `niMax`. -/
def nodeIdLength : List Byte → Nat → Nat
  | [], _ => 0
  | _, 0 => 0
  | b :: bs, m + 1 => if b = 0x00#8 then 0 else nodeIdLength bs m + 1

/-! ### Address text (R151 to R153) -/

/-- R151: an address of exactly 8 bytes. -/
def addressFromBytes : List Byte → Option Address
  | [b0, b1, b2, b3, b4, b5, b6, b7] => some ⟨b0, b1, b2, b3, b4, b5, b6, b7⟩
  | _ => none

/-- An upper-case hex digit (R153). -/
def hexDigit (n : Nat) : Char := if n < 10 then Char.ofNat (48 + n) else Char.ofNat (55 + n)

/-- The value of a hex digit of either case (R152). -/
def hexValue (c : Char) : Option Nat :=
  if 48 ≤ c.toNat ∧ c.toNat ≤ 57 then some (c.toNat - 48)
  else if 65 ≤ c.toNat ∧ c.toNat ≤ 70 then some (c.toNat - 55)
  else if 97 ≤ c.toNat ∧ c.toNat ≤ 102 then some (c.toNat - 87)
  else none

/-- A byte as two hex digits, high nibble first (R153). -/
def hexByte (b : Byte) : Text := [hexDigit (b.toNat / 16), hexDigit (b.toNat % 16)]

/-- The byte of two hex digits, the earlier one the high nibble (R152). -/
def byteOfHex (hi lo : Char) : Option Byte :=
  match hexValue hi, hexValue lo with
  | some h, some l => some (BitVec.ofNat 8 (h * 16 + l))
  | _, _ => none

/-- The bytes of a run of hex digits; `none` on an odd number of digits or another character. -/
def bytesOfHex : Text → Option (List Byte)
  | [] => some []
  | hi :: lo :: rest =>
    match byteOfHex hi lo, bytesOfHex rest with
    | some b, some bs => some (b :: bs)
    | _, _ => none
  | [_] => none

/-- R152: `0x` and 16 hex digits; the prefix is lower case (D18). -/
def addressFromString : Text → Option Address
  | '0' :: 'x' :: digits => (bytesOfHex digits).bind addressFromBytes
  | _ => none

/-- R153. -/
def addressToString (a : Address) : Text := '0' :: 'x' :: a.toBytes.flatMap hexByte

end Sys2Proof.Machine
end

