-- ==== Sys2Proof/WellFormed.lean ====
section
/-! DEFINITION. The checks on an instruction as syntax: operand values that the spec's operations accept. -/

namespace Sys2Proof

/-- R19, R51: a frame's payload length fits the 16-bit length field. `exec` does not check it: a call on a longer payload runs
(notes/assumptions/23.md). -/
def Frame.wf (f : Frame) : Bool := decide (f.len ≤ 65535)

/-- R83, U5: the raw sequence is long enough to hold both length bytes. -/
def rawReadable (raw : List Byte) (m : Bool) : Bool := (Machine.frameTypeOffset raw m).isSome

/-- R155: a logical payload that a frame can declare, `1 <= N <= 65535`. -/
def payloadFits (n : Nat) : Bool := decide (1 ≤ n) && decide (n ≤ 65535)

/-- A well-formed instruction: a byte of class ESCAPED or DATA is not the start delimiter (R55), a frame's payload fits its
length field, a raw sequence is readable (R83), and an encoder's payload length can be declared (R155 to R157). -/
def Instr.wf : Instr → Bool
  | .escaped b => b != Machine.sofByte
  | .data b => b != Machine.sofByte
  | .modemStatus f => f.wf
  | .extTxStatus f => f.wf
  | .rxPacket f => f.wf
  | .rxIo f => f.wf
  | .nodeId f => f.wf
  | .ratResponse f => f.wf
  | .routeRecordSkip f => f.wf
  | .txRequestInbound f => f.wf
  | .ratRequestInbound f => f.wf
  | .otherTag f => f.wf
  | .parseMux f => f.wf
  | .frameTypeOffset raw m => rawReadable raw m
  | .logicalSum raw m => rawReadable raw m
  | .checksum raw m => rawReadable raw m
  | .checksumValid raw m => rawReadable raw m
  | .encodeFrame p _ => payloadFits p.length
  | .buildTransmit _ _ d _ => payloadFits (14 + d.length)
  | .buildRemoteATCommand _ _ _ _ d _ => payloadFits (15 + d.length)
  | .sof | .esc | .escSeq7E | .escSeq7D | .escSeq11 | .escSeq13 => true
  | .be16 _ _ | .shouldEscape _ | .escapeAppend _ _ _ | .unescape _ _ => true
  | .accChecksumValid | .append _ | .frameComplete | .toFrame | .reset => true
  | .feed _ | .abort | .endOfStream | .hardReset _ => true
  | .digitalSamples _ _ | .analogSamples _ _ | .deviceTypeClass _ => true
  | .addressFromBytes _ | .addressFromString _ | .addressToString _ => true

end Sys2Proof
end

