-- ==== Sys2Proof/Decode.lean ====
section
/-! DEFINITION. The decoders of the block's three kinds of encoded instruction (a raw byte, an escape sequence, a frame at the
multiplexer), the encoder back, the stimulus script of R72, and the host's view of a table word. -/

namespace Sys2Proof

/-- An instruction in encoded form, as it stands where the block decodes it. -/
inductive Code where
  /-- A raw byte of the input stream (R55). -/
  | byte (b : Byte)
  /-- Two raw bytes on the wire, in wire order (R53). -/
  | pair (first second : Byte)
  /-- A frame at the multiplexer, decoded by its tag (R56). -/
  | frame (f : Frame)
deriving DecidableEq, Repr

/-- Why a decoder rejects. -/
inductive DecodeError where
  /-- A pair of bytes that is none of the four sequences of R53. -/
  | notAnEscapeSequence
  /-- A frame with no tag (R120, `NOMATCH(EMPTY)`). -/
  | emptyPayload
  /-- A script line that is none of the directives of R72. -/
  | unknownDirective
  /-- A word of the opcode table of another width than its encoded rows have. -/
  | noSuchWidth
deriving DecidableEq, Repr

/-- R55: a raw byte under the decoder's mode and escape-pending flag. Every byte has a class. -/
def decodeByte (mode escPending : Bool) (b : Byte) : Instr :=
  match Machine.byteClass mode escPending b with
  | .sof => .sof
  | .esc => .esc
  | .escaped => .escaped b
  | .data => .data b

/-- R53: a marker and an escaped reserved byte. -/
def decodePair (first second : Byte) : Except DecodeError Instr :=
  if first = Machine.escByte then
    if second = 0x5E#8 then .ok .escSeq7E
    else if second = 0x5D#8 then .ok .escSeq7D
    else if second = 0x31#8 then .ok .escSeq11
    else if second = 0x33#8 then .ok .escSeq13
    else .error .notAnEscapeSequence
  else .error .notAnEscapeSequence

/-- R56, R120: a frame by its tag, payload offset 0; all matches are on the full 8 bits. -/
def decodeFrame (f : Frame) : Except DecodeError Instr :=
  match f.payload with
  | [] => .error .emptyPayload
  | tag :: _ => .ok <|
    if tag = 0x8A#8 then .modemStatus f
    else if tag = 0x8B#8 then .extTxStatus f
    else if tag = 0x90#8 then .rxPacket f
    else if tag = 0x92#8 then .rxIo f
    else if tag = 0x95#8 then .nodeId f
    else if tag = 0x97#8 then .ratResponse f
    else if tag = 0xA1#8 then .routeRecordSkip f
    else if tag = 0x10#8 then .txRequestInbound f
    else if tag = 0x17#8 then .ratRequestInbound f
    else .otherTag f

/-- The decoder: total, rejecting by name. -/
def decode (mode escPending : Bool) : Code → Except DecodeError Instr
  | .byte b => .ok (decodeByte mode escPending b)
  | .pair a b => decodePair a b
  | .frame f => decodeFrame f

/-- The encoder, from the tables of R53, R55 and R56. The operations of 40 to 43 have no binary encoding (the table's
`"encoding": "none"`), so they have no code (notes/assumptions/5.md). -/
def encode : Instr → Option Code
  | .sof => some (.byte 0x7E#8)
  | .esc => some (.byte 0x7D#8)
  | .escaped b => some (.byte b)
  | .data b => some (.byte b)
  | .escSeq7E => some (.pair 0x7D#8 0x5E#8)
  | .escSeq7D => some (.pair 0x7D#8 0x5D#8)
  | .escSeq11 => some (.pair 0x7D#8 0x31#8)
  | .escSeq13 => some (.pair 0x7D#8 0x33#8)
  | .modemStatus f => some (.frame f)
  | .extTxStatus f => some (.frame f)
  | .rxPacket f => some (.frame f)
  | .rxIo f => some (.frame f)
  | .nodeId f => some (.frame f)
  | .ratResponse f => some (.frame f)
  | .routeRecordSkip f => some (.frame f)
  | .txRequestInbound f => some (.frame f)
  | .ratRequestInbound f => some (.frame f)
  | .otherTag f => some (.frame f)
  | .be16 _ _ | .shouldEscape _ | .escapeAppend _ _ _ | .unescape _ _ => none
  | .frameTypeOffset _ _ | .logicalSum _ _ | .checksum _ _ | .checksumValid _ _ => none
  | .accChecksumValid | .append _ | .frameComplete | .toFrame | .reset => none
  | .feed _ | .abort | .endOfStream | .hardReset _ => none
  | .parseMux _ | .digitalSamples _ _ | .analogSamples _ _ | .deviceTypeClass _ => none
  | .addressFromBytes _ | .addressFromString _ | .addressToString _ => none
  | .encodeFrame _ _ | .buildTransmit _ _ _ _ | .buildRemoteATCommand _ _ _ _ _ _ => none

/-- The nine tags that have a row of their own (R56). -/
def listedTag (tag : Byte) : Bool :=
  tag == 0x8A#8 || tag == 0x8B#8 || tag == 0x90#8 || tag == 0x92#8 || tag == 0x95#8 ||
  tag == 0x97#8 || tag == 0xA1#8 || tag == 0x10#8 || tag == 0x17#8

/-- When an encodable instruction stands where its encoding is read as it: a byte class under the qualifiers of R55, a tag's
instruction with a frame that carries the tag. -/
def Instr.fits (mode escPending : Bool) : Instr → Bool
  | .esc => mode && !escPending
  | .escaped b => escPending && b != Machine.sofByte
  | .data b => !escPending && b != Machine.sofByte && !(mode && b == Machine.escByte)
  | .modemStatus f => f.payload.head? == some 0x8A#8
  | .extTxStatus f => f.payload.head? == some 0x8B#8
  | .rxPacket f => f.payload.head? == some 0x90#8
  | .rxIo f => f.payload.head? == some 0x92#8
  | .nodeId f => f.payload.head? == some 0x95#8
  | .ratResponse f => f.payload.head? == some 0x97#8
  | .routeRecordSkip f => f.payload.head? == some 0xA1#8
  | .txRequestInbound f => f.payload.head? == some 0x10#8
  | .ratRequestInbound f => f.payload.head? == some 0x17#8
  | .otherTag f => f.payload.head?.any fun t => !listedTag t
  | _ => true

/-! ### The stimulus script (R72) -/

/-- The words of a script line: blanks separate them, `#` begins a comment. `cur` is the word in progress. -/
def scriptWords (cur : Text) : Text → List Text
  | [] => if cur = [] then [] else [cur]
  | c :: cs =>
    if c = '#' then (if cur = [] then [] else [cur])
    else if c = ' ' then (if cur = [] then scriptWords [] cs else cur :: scriptWords [] cs)
    else scriptWords (cur ++ [c]) cs

/-- One byte operand of `feed`: two hex digits. -/
def feedOperand : Text → Option Instr
  | [hi, lo] => (Machine.byteOfHex hi lo).map .feed
  | _ => none

/-- The operands of `feed`, one `Byte` event per byte, left to right. -/
def feedOperands : List Text → Option (List Instr)
  | [] => some []
  | w :: ws =>
    match feedOperand w, feedOperands ws with
    | some i, some is => some (i :: is)
    | _, _ => none

/-- R72: one line of a script. An empty or comment line has no directive. -/
def decodeDirective (line : Text) : Except DecodeError (List Instr) :=
  match scriptWords [] line with
  | [] => .ok []
  | [['a', 'b', 'o', 'r', 't']] => .ok [.abort]
  | [['e', 'o', 's']] => .ok [.endOfStream]
  | [['h', 'a', 'r', 'd', 'r', 'e', 's', 'e', 't'], ['m', 'o', 'd', 'e', '=', '0']] => .ok [.hardReset false]
  | [['h', 'a', 'r', 'd', 'r', 'e', 's', 'e', 't'], ['m', 'o', 'd', 'e', '=', '1']] => .ok [.hardReset true]
  | ['f', 'e', 'e', 'd'] :: w :: ws =>
    match feedOperands (w :: ws) with
    | some is => .ok is
    | none => .error .unknownDirective
  | _ => .error .unknownDirective

/-- A script, one directive per line. -/
def decodeScript : List Text → Except DecodeError (List Instr)
  | [] => .ok []
  | line :: rest =>
    match decodeDirective line, decodeScript rest with
    | .ok is, .ok js => .ok (is ++ js)
    | .error e, _ => .error e
    | _, .error e => .error e

/-- R72: the directive of one of the four input events. -/
def directiveOf : Instr → Option Text
  | .hardReset m =>
    some (['h', 'a', 'r', 'd', 'r', 'e', 's', 'e', 't', ' ', 'm', 'o', 'd', 'e', '='] ++ [if m then '1' else '0'])
  | .feed b => some (['f', 'e', 'e', 'd', ' '] ++ Machine.hexByte b)
  | .abort => some ['a', 'b', 'o', 'r', 't']
  | .endOfStream => some ['e', 'o', 's']
  | _ => none

/-! ### The host's view of a table word (notes/assumptions/6.md) -/

/-- The checksum byte of a logical payload given its sum (R57). -/
def tagFrame (mode : Bool) (tag : Byte) : Frame where
  delim := 0x7E#8
  payload := tag :: List.replicate 23 0x00#8
  checksum := 0xFF#8 - tag
  escaped := mode

/-- Where a table word stands: a tag that has a row of its own at the multiplexer, with 23 payload bytes of zero after it
(the longest layout, 0x95, needs 24 bytes); any other byte in the input stream; two bytes on the wire, the marker of bits
15 to 8 first. -/
def tableCode (nbits w : Nat) : Except DecodeError Code :=
  if nbits = 8 ∧ w < 256 then
    .ok (if listedTag (BitVec.ofNat 8 w) then .frame (tagFrame true (BitVec.ofNat 8 w)) else .byte (BitVec.ofNat 8 w))
  else if nbits = 16 ∧ w < 65536 then
    .ok (.pair (Machine.hiByte w) (Machine.loByte w))
  else .error .noSuchWidth

/-- The instruction the decoder reads from a table word. A byte class is read with `mode = 1` and `esc_pending = 0`, the one
setting of the two in which every byte of the stream rows SOF, ESC and DATA has that row's class. -/
def decodeTableWord (nbits w : Nat) : Option Instr :=
  match tableCode nbits w with
  | .error _ => none
  | .ok c =>
    match decode true false c with
    | .ok i => some i
    | .error _ => none

end Sys2Proof
end

