-- ==== Sys2Proof/Machine/State.lean ====
section
/-! DEFINITION. The state of the block (R10), its events (R7) and returned values, the reasons a step stops, and reset. -/

namespace Sys2Proof.Machine

/-- R7: the output events of a step. -/
inductive Event where
  | newFrame
  | frameOut (f : Frame) (r : ParseResult)
  | checksumFail (n : Half) (tag : Byte)
  | fault (code : FaultCode)
  | endOfFrames
deriving DecidableEq, Repr

/-- What an operation returns to its caller. `bytesBool` is the pair of R81 (output, escaped?) and of R82 (bytes, flag);
`raised` is a condition that ended the operation (R170, classes `fault` and `caller`). -/
inductive Value where
  | none
  | bool (b : Bool)
  | byte (b : Byte)
  | half (v : Half)
  | nat (n : Nat)
  | bytes (l : List Byte)
  | bytesBool (l : List Byte) (b : Bool)
  | frame (f : Frame)
  | result (r : ParseResult)
  | digital (l : List (Nat × Bool))
  | analog (l : List (Nat × Half))
  | deviceClass (c : DeviceClass)
  | address (a : Address)
  | text (t : Text)
  | raised (c : Condition)
deriving DecidableEq, Repr

/-- R7: the input events, and `call`, by which a host that wants the operations one by one (D2, R171) names one of them. -/
inductive Input where
  | hardReset (m : Bool)
  | byte (b : Byte)
  | abort
  | endOfStream
  | call (i : Instr)
deriving DecidableEq, Repr

/-- The block has no condition that stops the machine: its faults (R170, class `fault`) are states in which `fault` is set
and the block is halted (R184), so no constructor stands here. -/
inductive Fault where
deriving DecidableEq, Repr

/-- Why the model does not accept a call. -/
inductive Refusal where
  /-- Raised by an arm of `exec` for an instruction that has no meaning yet. Safe: nothing can be proved of it. No arm does. -/
  | notModelled (mnemonic : String)
  /-- Raised by `FrameTypeOffset`, `LogicalSum`, `Checksum`, `ChecksumValid` on a raw sequence too short for an index they
  read: "the result is unspecified and a model refuses the call" (R83, U5). Safe. -/
  | rawTooShort
  /-- Raised by `EncodeFrame`, `BuildTransmit`, `BuildRemoteATCommand` for a payload of 0 or more than 65535 bytes: "a model
  refuses such a call" (R155, U17). Safe. -/
  | payloadLength
deriving DecidableEq, Repr

/-- R10's six elements, then what the model adds: the parameters (an input of the step relation, R22), the host's pending
input, the outputs of the last step, and the counter of free values. -/
structure State where
  /-- R11: 1 is escaped mode. -/
  mode : Bool
  /-- R12: the `acc_len` meaningful bytes of the accumulator, index 0 first; bytes at index `acc_len` and above hold no value
  and have no place here. -/
  acc : List Byte
  /-- R14. -/
  escPending : Bool
  /-- R15: 0 means not yet measured. -/
  nCached : Half
  /-- R16: bit 0 `F_INVALID_STATE`, bit 1 `F_ZERO_LEN`, bit 2 `F_ACC_OVERFLOW`. -/
  fault : BitVec 3
  /-- R6, R22: the parameters; no operation writes them. -/
  cfg : Config
  /-- The model's own: the host's input events not yet taken, the next one first (R22, R39). -/
  input : List Input
  /-- The model's own: the events the last step emitted, in order; the next step's take their place (R22). -/
  events : List Event
  /-- The model's own: what the last operation returned. -/
  ret : Value
  /-- The model's own: how many free values have been used (notes/assumptions/2.md). -/
  freeCount : Nat
deriving DecidableEq, Repr

/-- R13: the number of valid bytes in the accumulator. -/
def State.accLen (s : State) : Nat := s.acc.length

/-- R30 (a): the accumulator space as addressed cells, indices 0 to `acc_len - 1`. -/
def State.memory (s : State) : List Host.Cell := s.acc.zipIdx.map fun c => (c.2, c.1)

/-- The canonical form of a memory: addresses strictly rising. An unlisted index holds no value (R12), so no entry can equal
what it reads as. -/
def Memory.wf (m : List Host.Cell) : Bool := decide (m.Pairwise fun a b => a.1 < b.1)

/-- R26, R195: the state after `HardReset`, with no input pending. `mode` is the host's argument, for which the spec gives no
default: 0 here (notes/assumptions/7.md). The parameters have the defaults of R6. -/
def State.reset : State where
  mode := false
  acc := []
  escPending := false
  nCached := 0#16
  fault := 0#3
  cfg := Config.default
  input := []
  events := []
  ret := .none
  freeCount := 0

end Sys2Proof.Machine
end

