-- ==== Sys2Proof/Machine/Flags.lean ====
section
/-! DEFINITION. The computations that play the part of flags: the fault bits, the checksum and its checks, and the completion
comparison. -/

namespace Sys2Proof.Machine

/-! ### Fault bits (R16) and codes (R170) -/

/-- R16: the bit of `fault` a code sets. -/
def faultBit : FaultCode → BitVec 3
  | .invalidState => 0b001#3
  | .zeroLen => 0b010#3
  | .accOverflow => 0b100#3

/-- R16: the block is halted while any bit is set. -/
def State.halted (s : State) : Bool := s.fault != 0#3

/-- R170: the condition a fault code names. -/
def faultCondition : FaultCode → Condition
  | .invalidState => .invalidState
  | .zeroLen => .zeroLength
  | .accOverflow => .accOverflow

/-- R170: the code numbers. -/
def conditionCode : Condition → Nat
  | .invalidState => 1
  | .zeroLength => 2
  | .accOverflow => 3
  | .checksumMismatch => 4
  | .noMatch => 5
  | .unrecognised => 6
  | .skipped => 7
  | .undefinedDeviceType => 8
  | .encoderSelfCheck => 9
  | .invalidAddress => 10
  | .endOfFrames => 11

/-- R170: the class of each condition. -/
def conditionClass : Condition → ConditionClass
  | .invalidState => .fault
  | .zeroLength => .fault
  | .accOverflow => .fault
  | .checksumMismatch => .event
  | .noMatch => .result
  | .unrecognised => .result
  | .skipped => .result
  | .undefinedDeviceType => .fieldValue
  | .encoderSelfCheck => .caller
  | .invalidAddress => .caller
  | .endOfFrames => .event

/-- R173 to R175: the condition a parser's result reports, if any. -/
def resultCondition : ParseResult → Option Condition
  | .noMatch _ => some .noMatch
  | .unrecognised _ => some .unrecognised
  | .skip => some .skipped
  | .nodeId p => if p.deviceTypeClass = .undefined then some .undefinedDeviceType else none
  | .modemStatus _ => none
  | .extTxStatus _ => none
  | .rxPacket _ _ => none
  | .rxIo _ => none
  | .ratResponse _ => none

/-- The condition of R170 that an event reports, if any. -/
def eventCondition : Event → Option Condition
  | .newFrame => none
  | .frameOut _ r => resultCondition r
  | .checksumFail _ _ => some .checksumMismatch
  | .fault c => some (faultCondition c)
  | .endOfFrames => some .endOfFrames

/-! ### The checksum -/

/-- R90 (1): the sum of the bytes modulo 256, the order of summation immaterial. -/
def byteSum : List Byte → Byte
  | [] => 0x00#8
  | b :: bs => b + byteSum bs

/-- R84; `none` where `FrameTypeOffset` has no answer. -/
def logicalSum (raw : List Byte) (m : Bool) : Option Byte :=
  (frameTypeOffset raw m).map fun o => byteSum (unescape (raw.drop o) m).1

/-- R85. -/
def checksum (raw : List Byte) (m : Bool) : Option Byte :=
  (logicalSum raw m).map fun v => 0xFF#8 - v

/-- R86. -/
def checksumValid (raw : List Byte) (m : Bool) : Option Bool :=
  (logicalSum raw m).map fun v => v == 0xFF#8

/-- R57: the checksum of a logical payload. -/
def payloadChecksum (p : List Byte) : Byte := 0xFF#8 - byteSum p

/-- R87; `none` below the precondition `acc_len >= 4`, and where the re-decoding meets a sequence for which `ChecksumValid` has
no answer. -/
def accCheck (cfg : Config) (mode : Bool) (acc : List Byte) : Option Bool :=
  if acc.length < 4 then none
  else if cfg.accCheckRedecode then checksumValid acc mode
  else some (byteSum (acc.drop 3) == 0xFF#8)

/-- R87 on a completed accumulator, where `accCheck` has an answer (`accCheck_complete`). -/
def accChecksumValid (cfg : Config) (mode : Bool) (acc : List Byte) : Bool := accCheck cfg mode acc == some true

/-! ### Completion -/

/-- R106, R206: `acc_len == n + 4`, compared as naturals. -/
def lengthComplete (accLen : Nat) (n : Half) : Bool := accLen == n.toNat + 4

end Sys2Proof.Machine
end

