-- ==== Sys2Proof/Machine/Ops.lean ====
section
/-! DEFINITION. The shared operations: raising a fault and leaving the halted state, the four rules of `Append`,
`FrameComplete`, `ToFrame`, `Reset`, and how an operation's outcome becomes a step's. -/

namespace Sys2Proof.Machine

/-! ### Outcomes of the decoder operations -/

/-- What a decoder operation does: it completes with a value, or a fault's cause ends it where it stands (section 4 of
00_scope.md). `c` is the fault raised; `none` on a halted block, which raises nothing further (R185). -/
inductive Effect (α : Type) where
  | done (s : State) (a : α)
  | ended (s : State) (c : Option FaultCode)

/-- The outputs of a step: its events and the value returned. -/
def State.emit (s : State) (evs : List Event) (v : Value) : State := { s with events := evs, ret := v }

/-- A pure operation: it returns a value and touches nothing else (R88, R150). -/
def State.answer (s : State) (v : Value) : Host.Outcome State Fault Refusal := .next (s.emit [] v)

/-- R184: the event of a fault raised. -/
def faultEvents : Option FaultCode → List Event
  | none => []
  | some c => [.fault c]

/-- What an operation that was ended leaves with its caller: the condition raised, if any. -/
def endedValue : Option FaultCode → Value
  | none => .none
  | some c => .raised (faultCondition c)

/-- A decoder operation as an instruction of its own: a raised fault emits `Fault(code)` (R184). -/
def Effect.finish {α : Type} (e : Effect α) (value : α → Value) : Host.Outcome State Fault Refusal :=
  match e with
  | .done s a => .next (s.emit [] (value a))
  | .ended s c => .next (s.emit (faultEvents c) (endedValue c))

/-! ### Fault entry and exit -/

/-- R184: entry. The named bit is set and the operation ends; no other element changes. The event `Fault(code)` is emitted by
`Effect.finish` or by the step that was ended. On a halted block the operation ends with nothing raised (R185;
notes/assumptions/11.md). -/
def raiseFault {α : Type} (c : FaultCode) (s : State) : Effect α :=
  if s.halted then .ended s none else .ended { s with fault := s.fault ||| faultBit c } (some c)

/-- R195, R185: `HardReset(m)`, the one exit from the halted state. -/
def hardResetState (m : Bool) (s : State) : State :=
  { s with mode := m, acc := [], escPending := false, nCached := 0#16, fault := 0#3 }

/-! ### The accumulator -/

/-- R43, R38: the append, the block's one store, at index `acc_len`. -/
def storeByte (v : Byte) (s : State) : State := { s with acc := s.acc ++ [v] }

/-- R105: a byte other than the start delimiter is discarded. -/
def State.dropsIdle (s : State) : Bool := s.cfg.idleDrop && s.acc.isEmpty

/-- R109: `Reset()`. -/
def resetDecoder (s : State) : State := { s with acc := [], nCached := 0#16, escPending := false }

/-! ### Append -/

/-- R101, rule 1. -/
def appendSof (s : State) : Effect Bool :=
  .done { s with acc := [sofByte], escPending := false,
                 nCached := if s.cfg.sofClearsN then 0#16 else s.nCached } true

/-- R102, rule 2. -/
def appendEsc (s : State) : Effect Bool := .done { s with escPending := true } false

/-- R103, rule 3. -/
def appendEscaped (b : Byte) (s : State) : Effect Bool :=
  if s.accLen = s.cfg.accCap then raiseFault .accOverflow s
  else .done { storeByte (flipBit5 b) s with escPending := false } false

/-- R104, rule 4. -/
def appendData (b : Byte) (s : State) : Effect Bool :=
  if s.accLen = s.cfg.accCap then raiseFault .accOverflow s
  else .done (storeByte b s) false

/-- R100: exactly one rule fires, by the class of the byte; R105 stands between rule 1 and the others. -/
def append (b : Byte) (s : State) : Effect Bool :=
  match byteClass s.mode s.escPending b with
  | .sof => appendSof s
  | .esc => if s.dropsIdle then .done s false else appendEsc s
  | .escaped => if s.dropsIdle then .done s false else appendEscaped b s
  | .data => if s.dropsIdle then .done s false else appendData b s

/-- `Append` of two bytes in order; a fault at the first ends it. Answers whether the second began a frame. -/
def appendPair (a b : Byte) (s : State) : Effect Bool :=
  match append a s with
  | .done s' _ => append b s'
  | .ended s' c => .ended s' c

/-! ### FrameComplete and ToFrame -/

/-- R106: the cached length, derived from `acc[1]` and `acc[2]` where it is not cached yet. -/
def measuredLength (s : State) : Half := if s.nCached = 0#16 then halfAt s.acc 1 else s.nCached

/-- R106, R107. -/
def frameComplete (s : State) : Effect Bool :=
  if s.accLen < 3 then .done s false
  else
    let s' := { s with nCached := measuredLength s }
    if s'.nCached = 0#16 then
      match s.cfg.zeroLenPolicy with
      | .fault => raiseFault .zeroLen s'
      | .literal => .done s' (lengthComplete s'.accLen s'.nCached)
    else .done s' (lengthComplete s'.accLen s'.nCached)

/-- R108, R32: the frame in a completed accumulator. -/
def accFrame (s : State) : Frame where
  delim := byteAt s.acc 0
  payload := (s.acc.drop 3).take s.nCached.toNat
  checksum := byteAt s.acc (s.nCached.toNat + 3)
  escaped := s.mode

/-- R108. A zero length raised by the `FrameComplete` inside ends the operation: the block is halted then, and raises nothing
further (R182, R185; notes/assumptions/10.md). -/
def toFrame (s : State) : Effect Frame :=
  match frameComplete s with
  | .ended s' c => .ended s' c
  | .done s' false => raiseFault .invalidState s'
  | .done s' true => .done s' (accFrame s')

end Sys2Proof.Machine
end

