-- ==== Sys2Proof/Machine/ByteClasses.lean ====
section
/-! DEFINITION. The rows of the decoder's opcode map (R55): the byte classes, each the `Append` of its byte, and the four
escape sequences (R53), each the `Append` of its two bytes. In a state in which the byte has another class, that class's rule
fires (notes/assumptions/9.md). -/

namespace Sys2Proof.Machine

/-- SOF (R101). -/
def execSof (s : State) : Host.Outcome State Fault Refusal := (append sofByte s).finish .bool

/-- ESC (R102). -/
def execEsc (s : State) : Host.Outcome State Fault Refusal := (append escByte s).finish .bool

/-- ESCAPED (R103). -/
def execEscaped (b : Byte) (s : State) : Host.Outcome State Fault Refusal := (append b s).finish .bool

/-- DATA (R104). -/
def execData (b : Byte) (s : State) : Host.Outcome State Fault Refusal := (append b s).finish .bool

/-- ESCSEQ_7E (R53). -/
def execEscSeq7E (s : State) : Host.Outcome State Fault Refusal := (appendPair escByte 0x5E#8 s).finish .bool

/-- ESCSEQ_7D (R53). -/
def execEscSeq7D (s : State) : Host.Outcome State Fault Refusal := (appendPair escByte 0x5D#8 s).finish .bool

/-- ESCSEQ_11 (R53). -/
def execEscSeq11 (s : State) : Host.Outcome State Fault Refusal := (appendPair escByte 0x31#8 s).finish .bool

/-- ESCSEQ_13 (R53). -/
def execEscSeq13 (s : State) : Host.Outcome State Fault Refusal := (appendPair escByte 0x33#8 s).finish .bool

end Sys2Proof.Machine
end

