-- ==== Sys2Proof/Machine/Companions.lean ====
section
/-! DEFINITION. The companion functions of 43_encoders_address.md as instructions. A failure is reported to the caller and
never touches the block's `fault` (R150). -/

namespace Sys2Proof.Machine

/-- The value of an address constructor, or `InvalidAddress` raised to the caller (R179). -/
def addressAnswer (a : Option Address) (s : State) : Host.Outcome State Fault Refusal :=
  s.answer <|
    match a with
    | some a => .address a
    | none => .raised .invalidAddress

/-- AddressFromBytes (R151). -/
def execAddressFromBytes (l : List Byte) (s : State) : Host.Outcome State Fault Refusal :=
  addressAnswer (addressFromBytes l) s

/-- AddressFromString (R152). -/
def execAddressFromString (t : Text) (s : State) : Host.Outcome State Fault Refusal :=
  addressAnswer (addressFromString t) s

/-- AddressToString (R153). -/
def execAddressToString (a : Address) (s : State) : Host.Outcome State Fault Refusal :=
  s.answer (.text (addressToString a))

/-- R155 steps 2 to 5: the wire bytes of a logical payload. -/
def wireBytes (p : List Byte) (m : Bool) : List Byte :=
  sofByte :: (escapeByte m (hiByte p.length) ++ escapeByte m (loByte p.length)) ++
    escapeAll m p ++ escapeByte m (payloadChecksum p)

/-- R155: the wire bytes after the self-check of step 6; a length that cannot be declared is refused (U17). -/
def encodeAnswer (p : List Byte) (m : Bool) (s : State) : Host.Outcome State Fault Refusal :=
  if p.length = 0 ∨ 65535 < p.length then .refused .payloadLength
  else if checksumValid (wireBytes p m) m = some true then s.answer (.bytes (wireBytes p m))
  else s.answer (.raised .encoderSelfCheck)

/-- R65, R156: the logical payload of a Transmit Request. -/
def transmitPayload (cfg : Config) (a : Address) (fid : Byte) (data : List Byte) : List Byte :=
  [0x10#8, fid] ++ a.toBytes ++ [0xFF#8, 0xFE#8] ++ [cfg.txRadius, cfg.txOptions] ++ data

/-- R66, R157: the logical payload of a Remote AT Command Request. -/
def remoteATPayload (cfg : Config) (a : Address) (fid cmd0 cmd1 : Byte) (param : List Byte) : List Byte :=
  [0x17#8, fid] ++ a.toBytes ++ [0xFF#8, 0xFE#8] ++ [cfg.ratOptions] ++ [cmd0, cmd1] ++ param

/-- EncodeFrame (R155). -/
def execEncodeFrame (p : List Byte) (m : Bool) (s : State) : Host.Outcome State Fault Refusal :=
  encodeAnswer p m s

/-- BuildTransmit (R156). -/
def execBuildTransmit (a : Address) (fid : Byte) (data : List Byte) (m : Bool) (s : State) :
    Host.Outcome State Fault Refusal :=
  encodeAnswer (transmitPayload s.cfg a fid data) m s

/-- BuildRemoteATCommand (R157). -/
def execBuildRemoteATCommand (a : Address) (fid cmd0 cmd1 : Byte) (param : List Byte) (m : Bool) (s : State) :
    Host.Outcome State Fault Refusal :=
  encodeAnswer (remoteATPayload s.cfg a fid cmd0 cmd1 param) m s

end Sys2Proof.Machine
end

