-- ==== Sys2Proof/Machine/Parsers.lean ====
section
/-! DEFINITION. The field parsers and the multiplexer (42_parsers.md): pure functions of a frame, and their instructions.
An instruction called on a payload above 65535 bytes, which has no 16-bit `len` and so is no frame of R19, runs like any other: the
model's choice (notes/assumptions/23.md). -/

namespace Sys2Proof.Machine

/-- The checks every parser begins with (R122, R182): the tag, then the minimum length. A frame with no tag byte is shorter
than every minimum, so it answers SHORT (notes/assumptions/8.md). -/
def guarded (tag : Byte) (nmin : Nat) (f : Frame) (body : ParseResult) : ParseResult :=
  match f.payload with
  | [] => .noMatch .short
  | t :: _ => if t = tag then (if f.len < nmin then .noMatch .short else body) else .noMatch .tag

/-- R123: the shared fields at offsets 1 to 11. -/
def receiveBase (p : List Byte) : ReceiveBase where
  srcAddr := addressAt p 1
  netAddr := halfAt p 9
  rxOptions := byteAt p 11

/-- R124. -/
def parse8A (f : Frame) : ParseResult := guarded 0x8A#8 2 f (.modemStatus (byteAt f.payload 1))

/-- R125. -/
def parse8B (f : Frame) : ParseResult :=
  guarded 0x8B#8 7 f <| .extTxStatus
    { frameId := byteAt f.payload 1
      netAddr := halfAt f.payload 2
      retryCount := byteAt f.payload 4
      deliveryStatus := byteAt f.payload 5
      discoveryStatus := byteAt f.payload 6 }

/-- R126. -/
def parse90 (cfg : Config) (f : Frame) : ParseResult :=
  guarded 0x90#8 12 f <|
    .rxPacket (receiveBase f.payload) ((f.payload.drop 12).take (f.len - 12 - cfg.rxTailTrim))

/-- R127 after the fixed fields: `rest` is the payload from offset 16 on. -/
def parse92Tail (p rest : List Byte) (digital : List (Nat × Bool)) : ParseResult :=
  match analogSamples (byteAt p 15) rest with
  | none => .noMatch .shortTail
  | some analog => .rxIo
      { base := receiveBase p
        sampleSets := byteAt p 12
        digitalMask := halfAt p 13
        analogMask := byteAt p 15
        digital := digital
        analog := analog }

/-- R127. -/
def parse92 (f : Frame) : ParseResult :=
  guarded 0x92#8 16 f <|
    if halfAt f.payload 13 = 0#16 then parse92Tail f.payload (f.payload.drop 16) []
    else if f.len < 18 then .noMatch .shortTail
    else parse92Tail f.payload (f.payload.drop 18)
      (digitalSamples (halfAt f.payload 13) (halfAt f.payload 16))

/-- R130. -/
def parse95 (cfg : Config) (f : Frame) : ParseResult :=
  guarded 0x95#8 22 f <|
    let p := f.payload
    let l := nodeIdLength (p.drop 22) cfg.niMax
    match p.drop (22 + l) with
    | [] => .noMatch .malformed
    | t :: rest =>
      if t = 0x00#8 then
        match rest with
        | [] => .noMatch .shortTail
        | d :: _ => .nodeId
            { base := receiveBase p
              remoteNetAddr := halfAt p 12
              remoteAddr := addressAt p 14
              nodeId := (p.drop 22).take l
              deviceType := d
              deviceTypeClass := deviceTypeClass d }
      else .noMatch .malformed

/-- R132. -/
def parse97 (f : Frame) : ParseResult :=
  guarded 0x97#8 15 f <| .ratResponse
    { frameId := byteAt f.payload 1
      srcAddr := addressAt f.payload 2
      netAddr := halfAt f.payload 10
      atCommand0 := byteAt f.payload 12
      atCommand1 := byteAt f.payload 13
      commandStatus := byteAt f.payload 14 }

/-- R133. -/
def skipA1 (f : Frame) : ParseResult := guarded 0xA1#8 1 f .skip

/-- R120: dispatch on the tag alone. -/
def parseMux (cfg : Config) (f : Frame) : ParseResult :=
  match f.payload with
  | [] => .noMatch .empty
  | tag :: _ =>
    if tag = 0x8A#8 then parse8A f
    else if tag = 0x8B#8 then parse8B f
    else if tag = 0x90#8 then parse90 cfg f
    else if tag = 0x92#8 then parse92 f
    else if tag = 0x95#8 then parse95 cfg f
    else if tag = 0x97#8 then parse97 f
    else if tag = 0xA1#8 then .skip
    else .unrecognised tag

/-! ### The rows of the multiplexer's opcode map, and its operations -/

/-- MODEM_STATUS (R124). -/
def execModemStatus (f : Frame) (s : State) : Host.Outcome State Fault Refusal :=
  s.answer (.result (parse8A f))

/-- EXT_TX_STATUS (R125). -/
def execExtTxStatus (f : Frame) (s : State) : Host.Outcome State Fault Refusal :=
  s.answer (.result (parse8B f))

/-- RX_PACKET (R126). -/
def execRxPacket (f : Frame) (s : State) : Host.Outcome State Fault Refusal :=
  s.answer (.result (parse90 s.cfg f))

/-- RX_IO (R127). -/
def execRxIo (f : Frame) (s : State) : Host.Outcome State Fault Refusal :=
  s.answer (.result (parse92 f))

/-- NODE_ID (R130). -/
def execNodeId (f : Frame) (s : State) : Host.Outcome State Fault Refusal :=
  s.answer (.result (parse95 s.cfg f))

/-- RAT_RESPONSE (R132). -/
def execRatResponse (f : Frame) (s : State) : Host.Outcome State Fault Refusal :=
  s.answer (.result (parse97 f))

/-- ROUTE_RECORD_SKIP (R133). -/
def execRouteRecordSkip (f : Frame) (s : State) : Host.Outcome State Fault Refusal :=
  s.answer (.result (skipA1 f))

/-- TX_REQUEST_INBOUND (R134): `UNRECOGNISED(0x10)`. -/
def execTxRequestInbound (f : Frame) (s : State) : Host.Outcome State Fault Refusal :=
  s.answer (.result (guarded 0x10#8 1 f (.unrecognised 0x10#8)))

/-- RAT_REQUEST_INBOUND (R134): `UNRECOGNISED(0x17)`. -/
def execRatRequestInbound (f : Frame) (s : State) : Host.Outcome State Fault Refusal :=
  s.answer (.result (guarded 0x17#8 1 f (.unrecognised 0x17#8)))

/-- OTHER_TAG (R134): `UNRECOGNISED(tag)` for a tag with no row of its own. -/
def otherTagResult (f : Frame) : ParseResult :=
  match f.payload with
  | [] => .noMatch .short
  | tag :: _ =>
    if tag = 0x8A#8 ∨ tag = 0x8B#8 ∨ tag = 0x90#8 ∨ tag = 0x92#8 ∨ tag = 0x95#8 ∨ tag = 0x97#8 ∨
       tag = 0xA1#8 ∨ tag = 0x10#8 ∨ tag = 0x17#8 then .noMatch .tag
    else .unrecognised tag

/-- OTHER_TAG (R134). -/
def execOtherTag (f : Frame) (s : State) : Host.Outcome State Fault Refusal :=
  s.answer (.result (otherTagResult f))

/-- ParseMux (R120). That it runs on a payload above 65535 bytes too is the model's choice, as for every row above
(notes/assumptions/23.md). -/
def execParseMux (f : Frame) (s : State) : Host.Outcome State Fault Refusal :=
  s.answer (.result (parseMux s.cfg f))

/-- DigitalSamples (R128). -/
def execDigitalSamples (mask word : Half) (s : State) : Host.Outcome State Fault Refusal :=
  s.answer (.digital (digitalSamples mask word))

/-- AnalogSamples (R129); bytes that run out answer as in the parser (R127 corner case 6). -/
def execAnalogSamples (mask : Byte) (bytes : List Byte) (s : State) : Host.Outcome State Fault Refusal :=
  s.answer <|
    match analogSamples mask bytes with
    | some l => .analog l
    | none => .result (.noMatch .shortTail)

/-- DeviceTypeClass (R131). -/
def execDeviceTypeClass (d : Byte) (s : State) : Host.Outcome State Fault Refusal :=
  s.answer (.deviceClass (deviceTypeClass d))

end Sys2Proof.Machine
end

