-- ==== Sys2Proof/Machine/Decoder.lean ====
section
/-! DEFINITION. The decoder operations and input events of 41_decoder.md as instructions. -/

namespace Sys2Proof.Machine

/-- Append (R100): the answer is `sof`. -/
def execAppend (b : Byte) (s : State) : Host.Outcome State Fault Refusal := (append b s).finish .bool

/-- FrameComplete (R106). On a declared length of 0 it answers false beside the fault (R107). -/
def execFrameComplete (s : State) : Host.Outcome State Fault Refusal :=
  match frameComplete s with
  | .done s' r => s'.answer (.bool r)
  | .ended s' c => .next (s'.emit (faultEvents c) (.bool false))

/-- ToFrame (R108). -/
def execToFrame (s : State) : Host.Outcome State Fault Refusal := (toFrame s).finish .frame

/-- Reset (R109). -/
def execReset (s : State) : Host.Outcome State Fault Refusal := State.answer (resetDecoder s) .none

/-- R110, once the accumulation is complete: the checksum, the frame and its result, `Reset`. `evs` are the events of the step
so far. -/
def deliver (s : State) (evs : List Event) : State :=
  if accChecksumValid s.cfg s.mode s.acc then
    match toFrame s with
    | .done s' f => (resetDecoder s').emit (evs ++ [.frameOut f (parseMux s'.cfg f)]) .none
    | .ended s' c => s'.emit (evs ++ faultEvents c) (endedValue c)
  else (resetDecoder s).emit (evs ++ [.checksumFail s.nCached (byteAt s.acc 3)]) .none

/-- R110 after `Append`: the completion query and what follows it. -/
def afterAppend (s : State) (evs : List Event) : State :=
  match frameComplete s with
  | .done s' true => deliver s' evs
  | .done s' false => s'.emit evs .none
  | .ended s' c => s'.emit (evs ++ faultEvents c) (endedValue c)

/-- R110: the step of the block for `Byte(b)`; a halted block ignores it (R116). -/
def feedState (b : Byte) (s : State) : State :=
  if s.halted then s.emit [] .none
  else
    match append b s with
    | .done s' sof => afterAppend s' (if sof then [.newFrame] else [])
    | .ended s' c => s'.emit (faultEvents c) (endedValue c)

/-- Feed (R110). -/
def execFeed (b : Byte) (s : State) : Host.Outcome State Fault Refusal := .next (feedState b s)

/-- Abort (R111); ignored while halted (R116). -/
def execAbort (s : State) : Host.Outcome State Fault Refusal :=
  if s.halted then s.answer .none else State.answer (resetDecoder s) .none

/-- EndOfStream (R112); ignored while halted (R116). -/
def execEndOfStream (s : State) : Host.Outcome State Fault Refusal :=
  if s.halted then s.answer .none else .next (s.emit [.endOfFrames] .none)

/-- HardReset (R195). -/
def execHardReset (m : Bool) (s : State) : Host.Outcome State Fault Refusal :=
  State.answer (hardResetState m s) .none

end Sys2Proof.Machine
end

