-- ==== Sys2Proof/Machine/Primitives.lean ====
section
/-! DEFINITION. The primitives of 40_primitives.md as instructions. -/

namespace Sys2Proof.Machine

/-- BE16 (R89). -/
def execBe16 (hi lo : Byte) (s : State) : Host.Outcome State Fault Refusal := s.answer (.half (be16 hi lo))

/-- ShouldEscape (R80). -/
def execShouldEscape (b : Byte) (s : State) : Host.Outcome State Fault Refusal := s.answer (.bool (shouldEscape b))

/-- EscapeAppend (R81). -/
def execEscapeAppend (m : Bool) (out : List Byte) (b : Byte) (s : State) : Host.Outcome State Fault Refusal :=
  s.answer (.bytesBool (escapeAppend m out b).1 (escapeAppend m out b).2)

/-- Unescape (R82). -/
def execUnescape (seq : List Byte) (m : Bool) (s : State) : Host.Outcome State Fault Refusal :=
  s.answer (.bytesBool (unescape seq m).1 (unescape seq m).2)

/-- The value of a raw-sequence function, or the refusal of U5. -/
def rawAnswer {α : Type} (v : Option α) (value : α → Value) (s : State) : Host.Outcome State Fault Refusal :=
  match v with
  | some a => s.answer (value a)
  | none => .refused .rawTooShort

/-- FrameTypeOffset (R83). -/
def execFrameTypeOffset (raw : List Byte) (m : Bool) (s : State) : Host.Outcome State Fault Refusal :=
  rawAnswer (frameTypeOffset raw m) .nat s

/-- LogicalSum (R84). -/
def execLogicalSum (raw : List Byte) (m : Bool) (s : State) : Host.Outcome State Fault Refusal :=
  rawAnswer (logicalSum raw m) .byte s

/-- Checksum (R85). -/
def execChecksum (raw : List Byte) (m : Bool) (s : State) : Host.Outcome State Fault Refusal :=
  rawAnswer (checksum raw m) .byte s

/-- ChecksumValid (R86). -/
def execChecksumValid (raw : List Byte) (m : Bool) (s : State) : Host.Outcome State Fault Refusal :=
  rawAnswer (checksumValid raw m) .bool s

/-- AccChecksumValid (R87). Where the rule states no result the answer is a free value (notes/assumptions/2.md). -/
def execAccChecksumValid (s : State) : Host.Outcome State Fault Refusal :=
  match accCheck s.cfg s.mode s.acc with
  | some b => s.answer (.bool b)
  | none => State.answer { s with freeCount := s.freeCount + 1 } (.bool (Config.freeBit s.freeCount == 1#1))

end Sys2Proof.Machine
end

