-- ==== Sys2Proof/Machine/Dispatch.lean ====
section
/-! DEFINITION. The dispatch: one arm per instruction. -/

namespace Sys2Proof.Machine

/-- The meaning of every instruction. -/
def exec (i : Instr) (s : State) : Host.Outcome State Fault Refusal :=
  match i with
  | .sof => Sys2Proof.Machine.execSof s
  | .esc => Sys2Proof.Machine.execEsc s
  | .escaped b => Sys2Proof.Machine.execEscaped b s
  | .data b => Sys2Proof.Machine.execData b s
  | .escSeq7E => Sys2Proof.Machine.execEscSeq7E s
  | .escSeq7D => Sys2Proof.Machine.execEscSeq7D s
  | .escSeq11 => Sys2Proof.Machine.execEscSeq11 s
  | .escSeq13 => Sys2Proof.Machine.execEscSeq13 s
  | .modemStatus f => Sys2Proof.Machine.execModemStatus f s
  | .extTxStatus f => Sys2Proof.Machine.execExtTxStatus f s
  | .rxPacket f => Sys2Proof.Machine.execRxPacket f s
  | .rxIo f => Sys2Proof.Machine.execRxIo f s
  | .nodeId f => Sys2Proof.Machine.execNodeId f s
  | .ratResponse f => Sys2Proof.Machine.execRatResponse f s
  | .routeRecordSkip f => Sys2Proof.Machine.execRouteRecordSkip f s
  | .txRequestInbound f => Sys2Proof.Machine.execTxRequestInbound f s
  | .ratRequestInbound f => Sys2Proof.Machine.execRatRequestInbound f s
  | .otherTag f => Sys2Proof.Machine.execOtherTag f s
  | .be16 hi lo => Sys2Proof.Machine.execBe16 hi lo s
  | .shouldEscape b => Sys2Proof.Machine.execShouldEscape b s
  | .escapeAppend m out b => Sys2Proof.Machine.execEscapeAppend m out b s
  | .unescape seq m => Sys2Proof.Machine.execUnescape seq m s
  | .frameTypeOffset raw m => Sys2Proof.Machine.execFrameTypeOffset raw m s
  | .logicalSum raw m => Sys2Proof.Machine.execLogicalSum raw m s
  | .checksum raw m => Sys2Proof.Machine.execChecksum raw m s
  | .checksumValid raw m => Sys2Proof.Machine.execChecksumValid raw m s
  | .accChecksumValid => Sys2Proof.Machine.execAccChecksumValid s
  | .append b => Sys2Proof.Machine.execAppend b s
  | .frameComplete => Sys2Proof.Machine.execFrameComplete s
  | .toFrame => Sys2Proof.Machine.execToFrame s
  | .reset => Sys2Proof.Machine.execReset s
  | .feed b => Sys2Proof.Machine.execFeed b s
  | .abort => Sys2Proof.Machine.execAbort s
  | .endOfStream => Sys2Proof.Machine.execEndOfStream s
  | .hardReset m => Sys2Proof.Machine.execHardReset m s
  | .parseMux f => Sys2Proof.Machine.execParseMux f s
  | .digitalSamples mask word => Sys2Proof.Machine.execDigitalSamples mask word s
  | .analogSamples mask bytes => Sys2Proof.Machine.execAnalogSamples mask bytes s
  | .deviceTypeClass d => Sys2Proof.Machine.execDeviceTypeClass d s
  | .addressFromBytes l => Sys2Proof.Machine.execAddressFromBytes l s
  | .addressFromString t => Sys2Proof.Machine.execAddressFromString t s
  | .addressToString a => Sys2Proof.Machine.execAddressToString a s
  | .encodeFrame p m => Sys2Proof.Machine.execEncodeFrame p m s
  | .buildTransmit a fid d m => Sys2Proof.Machine.execBuildTransmit a fid d m s
  | .buildRemoteATCommand a fid cmd0 cmd1 param m => Sys2Proof.Machine.execBuildRemoteATCommand a fid cmd0 cmd1 param m s

end Sys2Proof.Machine
end

