-- ==== Sys2Proof/Machine/Step.lean ====
section
/-! DEFINITION. One step: the next input event is taken and its instruction executed; and how the host places an
instruction where the step takes it from. -/

namespace Sys2Proof.Machine

/-- R72: the instruction of an input event; `Feed(b)` is the block's response to `Byte(b)` (R110). -/
def Input.instr : Input → Instr
  | .hardReset m => .hardReset m
  | .byte b => .feed b
  | .abort => .abort
  | .endOfStream => .endOfStream
  | .call i => i

/-- R7: the input event of an instruction; an operation that is no event is called. -/
def inputOf : Instr → Input
  | .hardReset m => .hardReset m
  | .feed b => .byte b
  | .abort => .abort
  | .endOfStream => .endOfStream
  | i => .call i

/-- R39: one step per input event, in order. With no event pending the block waits (R181, U21): nothing is emitted
(notes/assumptions/20.md). -/
def step (s : State) : Host.Outcome State Fault Refusal :=
  match s.input with
  | [] => .next (s.emit [] .none)
  | ev :: rest => exec ev.instr { s with input := rest }

/-- Input events placed after those already pending (R22: the host supplies the stream). -/
def State.withInput (s : State) (evs : List Input) : State := { s with input := s.input ++ evs }

/-- The accumulator of a frame whose checksum byte has not arrived, and that byte as the next input: the next step completes
the frame and the multiplexer executes its tag's instruction (R110, R120). -/
def State.withTagFrame (s : State) (tag : Byte) : State :=
  let f := tagFrame s.mode tag
  { s with
    acc := [f.delim, hiByte f.len, loByte f.len] ++ f.payload
    escPending := false
    nCached := BitVec.ofNat 16 f.len
    fault := 0#3
    input := .byte f.checksum :: s.input }

/-- A raw byte as the next input, in a state in which it has the class `decodeTableWord` reads. -/
def State.withRawByte (s : State) (b : Byte) : State :=
  { s with
    mode := if b = escByte then true else s.mode
    escPending := if b = sofByte then s.escPending else false
    fault := 0#3
    input := .byte b :: s.input }

/-- An escape sequence is two bytes of the stream, so no one step of the stream runs it; it is called (notes/assumptions/6.md). -/
def State.withCall (s : State) (i : Instr) : State := { s with input := .call i :: s.input }

/-- The host's placement of a table word as the next instruction (notes/assumptions/6.md). -/
def State.withFetchWord (s : State) (nbits w : Nat) : State :=
  match tableCode nbits w with
  | .error _ => s
  | .ok (.byte b) => s.withRawByte b
  | .ok (.frame f) => s.withTagFrame (byteAt f.payload 0)
  | .ok (.pair a b) =>
    match decodePair a b with
    | .ok i => s.withCall i
    | .error _ => { s with input := .byte a :: .byte b :: s.input }

end Sys2Proof.Machine
end

