-- ==== Sys2Proof/Safety.lean ====
section
/-! DEFINITION. What the claims call a safe run: the invariants of R14, R18, R23, R24 and R25, runs with their events, and runs
that never halt. -/

/-- A configuration that can hold a start delimiter (R101: rule 1 stores one byte whatever the state). -/
abbrev Sys2Proof.Config.holdsDelimiter (c : Sys2Proof.Config) : Prop := 1 ≤ c.accCap

namespace Sys2Proof.Machine

/-- R13, R38: the accumulator is within its capacity. -/
abbrev State.WithinCapacity (s : State) : Prop := s.accLen ≤ s.cfg.accCap

/-- R14: while `mode = 0`, `esc_pending` is 0. -/
abbrev State.EscapeNeedsMode (s : State) : Prop := s.mode = false → s.escPending = false

/-- R23: with `SOF_CLEARS_N = 1`, a nonzero cached length is the length in the accumulator. -/
abbrev State.CacheAgrees (s : State) : Prop :=
  s.cfg.sofClearsN = true → s.nCached ≠ 0#16 → 3 ≤ s.accLen ∧ s.nCached = halfAt s.acc 1

/-- R25: with `IDLE_DROP = 1` an accumulation begins with the start delimiter. -/
abbrev State.StartsWithDelimiter (s : State) : Prop :=
  s.cfg.idleDrop = true → s.acc = [] ∨ s.acc.head? = some sofByte

/-- R18: with `IDLE_DROP = 1` no escape is pending while idle. -/
abbrev State.NoIdleEscape (s : State) : Prop :=
  s.cfg.idleDrop = true → s.acc = [] → s.escPending = false

/-- The invariants that every step keeps, operation calls included. -/
structure State.Inv (s : State) : Prop where
  capacity : s.WithinCapacity
  escape : s.EscapeNeedsMode
  cache : s.CacheAgrees
  delimiter : s.StartsWithDelimiter
  idle : s.NoIdleEscape

/-- R24, for a block advanced by input events alone: a non-halted block has not reached the completion length, and under the
default policy has not accepted a declared length of 0. -/
abbrev State.InProgress (s : State) : Prop :=
  s.halted = false → 3 ≤ s.accLen →
    s.accLen < (halfAt s.acc 1).toNat + 4 ∧ (s.cfg.zeroLenPolicy = .fault → halfAt s.acc 1 ≠ 0#16)

/-- The next input, if any, is one of the four input events of R7 and not a call of an operation. -/
def State.nextIsEvent (s : State) : Bool :=
  match s.input with
  | .call _ :: _ => false
  | _ => true

/-- `n` steps: the end state and the events of all steps in order (R39, R113). -/
def trace : Nat → State → Option (State × List Event)
  | 0, s => some (s, [])
  | n + 1, s =>
    match step s with
    | .next t => (trace n t).map fun r => (r.1, t.events ++ r.2)
    | .fault _ => none
    | .refused _ => none

/-- R116: a run that reaches the halted state has gone wrong; a safe run of `n` steps never does. -/
def SafeRun : Nat → State → Prop
  | 0, s => s.halted = false
  | n + 1, s => s.halted = false ∧ ∃ t, step s = .next t ∧ SafeRun n t

end Sys2Proof.Machine
end

