-- ==== Sys2Proof/Certificates/Slice0/Obligations.lean ====
section
/-! DEFINITION. The statements. Each says in its own terms what a rule of the spec gives: byte values, sums of naturals and
payload positions, not the model's functions. -/

open Sys2Proof Sys2Proof.Machine

namespace Sys2Proof.Statements

/-- R53, R81: what `EscapeAppend` emits for one byte. -/
def escapeSpec (m : Bool) (b : Byte) : List Byte :=
  if m = true ∧ b ∈ [0x7E#8, 0x7D#8, 0x11#8, 0x13#8] then [0x7D#8, b ^^^ 0x20#8] else [b]

/-- The sum of a byte sequence as a natural number (R57). -/
def natSum (l : List Byte) : Nat := (l.map BitVec.toNat).sum

/-- R57: the checksum of a logical payload. -/
def checksumSpec (p : List Byte) : Byte := BitVec.ofNat 8 (255 - natSum p % 256)

/-- R50, R54, R155: the wire bytes of a logical payload. -/
def wireSpec (p : List Byte) (m : Bool) : List Byte :=
  [0x7E#8] ++ escapeSpec m (BitVec.ofNat 8 (p.length / 256)) ++ escapeSpec m (BitVec.ofNat 8 (p.length % 256)) ++
    p.flatMap (escapeSpec m) ++ escapeSpec m (checksumSpec p)

/-- R105: the idle discard does not apply. -/
def accepts (s : State) : Prop := s.cfg.idleDrop = false ∨ s.acc ≠ []

/-- R152: the hex digits and their values. -/
def hexTable : List (Char × Nat) :=
  [('0', 0), ('1', 1), ('2', 2), ('3', 3), ('4', 4), ('5', 5), ('6', 6), ('7', 7), ('8', 8), ('9', 9), ('a', 10), ('b', 11),
    ('c', 12), ('d', 13), ('e', 14), ('f', 15), ('A', 10), ('B', 11), ('C', 12), ('D', 13), ('E', 14), ('F', 15)]

/-- R129: the channels of an analog mask, in the order they are checked. -/
def channels (mask : Byte) : List Nat := [0, 1, 2, 3, 7].filter fun k => mask.toNat / 2 ^ k % 2 = 1

/-- The pure operations: primitives, parsers, encoders and address functions (R41, R88, R150). -/
def isPure : Instr → Bool
  | .modemStatus _ | .extTxStatus _ | .rxPacket _ | .rxIo _ | .nodeId _ | .ratResponse _ | .routeRecordSkip _
  | .txRequestInbound _ | .ratRequestInbound _ | .otherTag _ => true
  | .be16 _ _ | .shouldEscape _ | .escapeAppend _ _ _ | .unescape _ _ | .frameTypeOffset _ _ | .logicalSum _ _
  | .checksum _ _ | .checksumValid _ _ => true
  | .parseMux _ | .digitalSamples _ _ | .analogSamples _ _ | .deviceTypeClass _ => true
  | .addressFromBytes _ | .addressFromString _ | .addressToString _ => true
  | .encodeFrame _ _ | .buildTransmit _ _ _ _ | .buildRemoteATCommand _ _ _ _ _ _ => true
  | .sof | .esc | .escaped _ | .data _ | .escSeq7E | .escSeq7D | .escSeq11 | .escSeq13 => false
  | .accChecksumValid | .append _ | .frameComplete | .toFrame | .reset | .feed _ | .abort | .endOfStream
  | .hardReset _ => false

/-- The next state of an operation that returns a value, emits nothing and changes no element of the block. -/
def returns (s : State) (v : Value) : Host.Outcome State Machine.Fault Refusal := .next { s with events := [], ret := v }

/-- A decoder in the reset state (R26), in a given mode, not halted. -/
def fresh (m : Bool) (s : State) : Prop :=
  s.mode = m ∧ s.acc = [] ∧ s.escPending = false ∧ s.nCached = 0#16 ∧ s.fault = 0#3

end Sys2Proof.Statements

open Sys2Proof.Statements

/-! ### Encoding -/

/-- R53, R55, R56: an instruction that stands where its encoding is read as it decodes to itself, with every operand. -/
def Obligations.DecodeOfEncodeIsIdentity : Prop :=
  ∀ (m e : Bool) (i : Instr) (c : Code), i.wf = true → i.fits m e = true → encode i = some c → decode m e c = .ok i

/-- R55, R56: what the decoder reads has that encoding and stands where it is read so; each code has one meaning. -/
def Obligations.EncodeOfDecodeIsIdentity : Prop :=
  ∀ (m e : Bool) (c : Code) (i : Instr), decode m e c = .ok i → encode i = some c ∧ i.fits m e = true

/-- R55: the table of byte classes, in its priority order. -/
def Obligations.ByteClassesFollowTheTable : Prop :=
  ∀ (m e : Bool) (b : Byte),
    (b = 0x7E#8 → decodeByte m e b = .sof) ∧
    (b = 0x7D#8 ∧ m = true ∧ e = false → decodeByte m e b = .esc) ∧
    (b ≠ 0x7E#8 ∧ e = true → decodeByte m e b = .escaped b) ∧
    (b ≠ 0x7E#8 ∧ e = false ∧ ¬(b = 0x7D#8 ∧ m = true) → decodeByte m e b = .data b)

/-- R53, R55, R56: words written out from the tables decode to the instruction they stand for. How a bare table word is read (8
bits with mode 1 and no escape pending, a byte that the masks leave open as DATA, 16 bits with the marker in bits 15 to 8) is the
model's choice (notes/assumptions/6.md), and the clauses on `decodeTableWord` rest on it. -/
def Obligations.SampleWordsDecode : Prop :=
  decodeTableWord 8 0x7E = some .sof ∧ decodeTableWord 8 0x7D = some .esc ∧
  decodeTableWord 8 0x41 = some (.data 0x41#8) ∧ decode true true (.byte 0x33#8) = .ok (.escaped 0x33#8) ∧
  decodeTableWord 16 0x7D5E = some .escSeq7E ∧ decodeTableWord 16 0x7D5D = some .escSeq7D ∧
  decodeTableWord 16 0x7D31 = some .escSeq11 ∧ decodeTableWord 16 0x7D33 = some .escSeq13 ∧
  decode false false (.frame ⟨0x7E#8, [0x8A#8, 0x00#8], 0x75#8, false⟩) =
    .ok (.modemStatus ⟨0x7E#8, [0x8A#8, 0x00#8], 0x75#8, false⟩) ∧
  decode false false (.frame ⟨0x7E#8, [0x42#8], 0xBD#8, false⟩) = .ok (.otherTag ⟨0x7E#8, [0x42#8], 0xBD#8, false⟩)

/-- R72: the directive of an input event reads back as that event alone. -/
def Obligations.DirectivesReadBack : Prop :=
  ∀ (i : Instr) (t : Text), directiveOf i = some t → decodeDirective t = .ok [i]

/-! ### The step -/

/-- R7, R39, R72: a step takes the next input event and executes its instruction; with none pending the block waits.
That a step with no input pending is a next state, in which nothing but the last step's outputs changes, is the model's choice
(notes/assumptions/20.md), and the second clause rests on it. -/
def Obligations.StepExecutesTheNextInput : Prop :=
  (∀ (s : State) (ev : Input) (rest : List Input), s.input = ev :: rest → step s = exec ev.instr { s with input := rest }) ∧
  (∀ s : State, s.input = [] → step s = returns s .none)

/-- R55, R100, R110: on a byte a block that is not halted executes the instruction the byte decodes to under `mode` and
`esc_pending`; a fault ends the step; otherwise the completion query follows (`afterAppend`), after `NewFrame` where the
instruction answered that a frame begins. -/
def Obligations.ByteStepExecutesTheDecodedClass : Prop :=
  ∀ (s t : State) (b : Byte) (rest : List Input), s.halted = false → s.input = .byte b :: rest →
    exec (decodeByte s.mode s.escPending b) { s with input := rest } = .next t →
    (t.events ≠ [] → step s = .next t) ∧
    (t.events = [] → step s = .next (afterAppend t (if t.ret = .bool true then [.newFrame] else [])))

/-- R100: `Append` is the rule of the byte's class. -/
def Obligations.AppendDispatchesOnTheClass : Prop :=
  ∀ (s : State) (b : Byte), exec (.append b) s = exec (decodeByte s.mode s.escPending b) s

/-- R72, R120: the multiplexer executes the one instruction the frame's tag decodes to.
Payloads above 65535 bytes are included by the model's choice (notes/assumptions/23.md). -/
def Obligations.MultiplexerExecutesTheDecodedTag : Prop :=
  ∀ (s : State) (f : Frame) (i : Instr), decodeFrame f = .ok i → exec (.parseMux f) s = exec i s

/-! ### Append -/

/-- R101, R197: a start delimiter at any time, in both modes and whatever the state is. -/
def Obligations.StartDelimiterRestarts : Prop :=
  ∀ s : State,
    let n : Half := if s.cfg.sofClearsN = true then 0#16 else s.nCached
    let t : State := { s with acc := [0x7E#8], escPending := false, nCached := n, events := [], ret := .bool true }
    exec .sof s = .next t ∧ exec (.append 0x7E#8) s = .next t ∧
    (s.halted = false → exec (.feed 0x7E#8) s = .next { t with events := [.newFrame], ret := .none })

/-- R102: an escape marker sets `esc_pending` and stores nothing, at capacity too. -/
def Obligations.EscapeMarkerIsConsumed : Prop :=
  ∀ s : State, s.mode = true → s.escPending = false → accepts s →
    exec .esc s = .next { s with escPending := true, events := [], ret := .bool false } ∧
    exec (.append 0x7D#8) s = .next { s with escPending := true, events := [], ret := .bool false }

/-- R103, R115: the byte after a marker, at capacity and below it. That the row runs on a halted block, where at capacity it raises
nothing further (R185) and returns nothing, is the model's choice (notes/assumptions/11.md). -/
def Obligations.EscapedByteIsStoredFlipped : Prop :=
  ∀ (s : State) (b : Byte), s.escPending = true → b ≠ 0x7E#8 → accepts s →
    exec (.append b) s = exec (.escaped b) s ∧
    (s.accLen ≠ s.cfg.accCap → exec (.escaped b) s =
      .next { s with acc := s.acc ++ [b ^^^ 0x20#8], escPending := false, events := [], ret := .bool false }) ∧
    (s.accLen = s.cfg.accCap → s.halted = false → exec (.escaped b) s =
      .next { s with fault := 0b100#3, events := [.fault .accOverflow], ret := .raised .accOverflow }) ∧
    (s.accLen = s.cfg.accCap → s.halted = true → exec (.escaped b) s = returns s .none)

/-- R104, R115: any other byte, at capacity and below it. That the row runs on a halted block, where at capacity it raises nothing
further (R185) and returns nothing, is the model's choice (notes/assumptions/11.md). -/
def Obligations.DataByteIsStoredVerbatim : Prop :=
  ∀ (s : State) (b : Byte), b ≠ 0x7E#8 → s.escPending = false → (b ≠ 0x7D#8 ∨ s.mode = false) → accepts s →
    exec (.append b) s = exec (.data b) s ∧
    (s.accLen ≠ s.cfg.accCap → exec (.data b) s =
      .next { s with acc := s.acc ++ [b], events := [], ret := .bool false }) ∧
    (s.accLen = s.cfg.accCap → s.halted = false → exec (.data b) s =
      .next { s with fault := 0b100#3, events := [.fault .accOverflow], ret := .raised .accOverflow }) ∧
    (s.accLen = s.cfg.accCap → s.halted = true → exec (.data b) s = returns s .none)

/-- R105: with `IDLE_DROP = 1` a byte other than 0x7E that arrives while idle changes no state element. -/
def Obligations.IdleByteIsDiscarded : Prop :=
  ∀ (s : State) (b : Byte), s.cfg.idleDrop = true → s.acc = [] → b ≠ 0x7E#8 →
    exec (.append b) s = returns s (.bool false) ∧
    exec (.data b) s = returns s (.bool false) ∧
    exec (.escaped b) s = returns s (.bool false) ∧
    exec .esc s = returns s (.bool false) ∧
    (s.halted = false → exec (.feed b) s = returns s .none)

/-- R53, R102, R103: each escape sequence stores the one logical byte it stands for. -/
def Obligations.EscapeSequencesStoreTheLogicalByte : Prop :=
  ∀ s : State, s.mode = true → s.escPending = false → accepts s → s.accLen ≠ s.cfg.accCap →
    exec .escSeq7E s = .next { s with acc := s.acc ++ [0x7E#8], events := [], ret := .bool false } ∧
    exec .escSeq7D s = .next { s with acc := s.acc ++ [0x7D#8], events := [], ret := .bool false } ∧
    exec .escSeq11 s = .next { s with acc := s.acc ++ [0x11#8], events := [], ret := .bool false } ∧
    exec .escSeq13 s = .next { s with acc := s.acc ++ [0x13#8], events := [], ret := .bool false }

/-- R30, R35, R43: the one store of the block goes to index `acc_len`. Where a byte class or `Append` of a byte other than the
start delimiter gives a next state, every cell outside that index reads as before, and what was not stored stays unlisted. -/
def Obligations.AppendStoresOnlyAtAccLen : Prop :=
  ∀ (s t : State) (i : Instr) (b : Byte), b ≠ 0x7E#8 → i ∈ [.append b, .data b, .escaped b, .esc] →
    exec i s = .next t →
    (∀ (a : Nat) (v : Byte), a ≠ s.accLen → ((a, v) ∈ t.memory ↔ (a, v) ∈ s.memory)) ∧
    (t.accLen = s.accLen ∨ t.accLen = s.accLen + 1)

/-! ### FrameComplete, ToFrame, Reset -/

/-- R106, R206: below 3 bytes the answer is false and nothing is written; from 3 on the length is cached and the comparison is
on naturals. The declared length is written out from the bytes at indices 1 and 2, the one in `n_cached` used where it is not 0.
Asking again changes nothing and answers the same. -/
def Obligations.FrameCompleteMeasures : Prop :=
  (∀ s : State, s.accLen < 3 → exec .frameComplete s = returns s (.bool false)) ∧
  (∀ (s : State) (d hi lo : Byte) (rest : List Byte) (n : Half), s.acc = d :: hi :: lo :: rest → n ≠ 0#16 →
    (if s.nCached = 0#16 then n.toNat = hi.toNat * 256 + lo.toNat else n = s.nCached) →
    exec .frameComplete s =
      .next { s with nCached := n, events := [], ret := .bool (decide (rest.length + 3 = n.toNat + 4)) }) ∧
  (∀ s t : State, exec .frameComplete s = .next t → t.events = [] → exec .frameComplete t = .next t)

/-- R107, R176: a declared length of 0. By default the fault, and the answer false; under the literal policy `acc_len == 4` with
nothing written, and a zero-length frame completes at its fourth byte, is valid when that byte is 0xFF, and answers
`NOMATCH(EMPTY)`. That the query runs on a halted block, where it raises nothing further (R185) and answers false, is the model's
choice (notes/assumptions/11.md). -/
def Obligations.ZeroLengthFollowsThePolicy : Prop :=
  (∀ (s : State) (d : Byte) (rest : List Byte), s.acc = d :: 0x00#8 :: 0x00#8 :: rest → s.nCached = 0#16 →
    (s.cfg.zeroLenPolicy = .fault → s.halted = false → exec .frameComplete s =
      .next { s with fault := 0b010#3, events := [.fault .zeroLen], ret := .bool false }) ∧
    (s.cfg.zeroLenPolicy = .fault → s.halted = true → exec .frameComplete s = returns s (.bool false)) ∧
    (s.cfg.zeroLenPolicy = .literal → exec .frameComplete s =
      returns s (.bool (decide (rest.length + 3 = 4))))) ∧
  (∀ (s : State) (d cs : Byte), s.cfg.zeroLenPolicy = .literal → s.halted = false → s.nCached = 0#16 →
    s.escPending = false → s.acc = [d, 0x00#8, 0x00#8] → s.cfg.accCheckRedecode = false → s.cfg.accCap ≠ 3 →
    cs ≠ 0x7E#8 → (cs ≠ 0x7D#8 ∨ s.mode = false) →
    let ev : Event := if cs = 0xFF#8 then .frameOut ⟨d, [], cs, s.mode⟩ (.noMatch .empty) else .checksumFail 0#16 cs
    exec (.feed cs) s = .next { s with acc := [], events := [ev], ret := .none })

/-- R23, the consequence: where the cache agrees with the accumulator it is not observable; the answer is that of the
cache-free function. -/
def Obligations.CacheIsUnobservable : Prop :=
  ∀ (s : State) (d hi lo : Byte) (rest : List Byte), s.CacheAgrees → s.cfg.sofClearsN = true →
    s.acc = d :: hi :: lo :: rest → hi.toNat * 256 + lo.toNat ≠ 0 →
    ∃ t, exec .frameComplete s = .next t ∧
      t.ret = .bool (decide (s.accLen = hi.toNat * 256 + lo.toNat + 4)) ∧ t.nCached.toNat = hi.toNat * 256 + lo.toNat

/-- R108, R31, R32: the frame in a completed accumulation. -/
def Obligations.ToFrameReadsTheAccumulator : Prop :=
  ∀ (s : State) (d hi lo ck : Byte) (p : List Byte), s.acc = d :: hi :: lo :: (p ++ [ck]) →
    p.length = hi.toNat * 256 + lo.toNat → p ≠ [] → (s.nCached = 0#16 ∨ s.nCached.toNat = p.length) →
    exec .toFrame s =
      .next { s with nCached := BitVec.ofNat 16 p.length, events := [], ret := .frame ⟨d, p, ck, s.mode⟩ }

/-- R171: `ToFrame` before completion. That the cached length is what the `FrameComplete` inside left (notes/assumptions/10.md), and
that the operation runs on a halted block, where it raises nothing further (R185) and returns no frame
(notes/assumptions/11.md), are the model's choices. -/
def Obligations.ToFrameBeforeCompletionFaults : Prop :=
  ∀ (s t : State), exec .frameComplete s = .next t → t.events = [] → t.ret = .bool false →
    (s.halted = false → exec .toFrame s =
      .next { t with fault := 0b001#3, events := [.fault .invalidState], ret := .raised .invalidState }) ∧
    (s.halted = true → exec .toFrame s = .next { t with events := [], ret := .none })

/-- R109, R196: `Reset()` in every state. -/
def Obligations.ResetClearsThreeElements : Prop :=
  ∀ s : State, exec .reset s =
    .next { s with acc := [], nCached := 0#16, escPending := false, events := [], ret := .none }

/-- R87, with the default parameter: the sum runs from index 3 with no second decoding. Below 4 bytes, and where the re-decoding
meets a sequence that `ChecksumValid` does not accept, the result is a free value, the model's choice
(notes/assumptions/2.md). -/
def Obligations.AccChecksumSumsFromIndexThree : Prop :=
  (∀ (s : State), 4 ≤ s.accLen → s.cfg.accCheckRedecode = false →
    exec .accChecksumValid s =
      returns s (.bool (decide (natSum (s.acc.drop 3) % 256 = 255)))) ∧
  (∀ (s : State), 4 ≤ s.accLen → s.cfg.accCheckRedecode = true → rawReadable s.acc s.mode = true →
    exec .accChecksumValid s = exec (.checksumValid s.acc s.mode) s) ∧
  (∀ (s : State), 4 ≤ s.accLen → s.cfg.accCheckRedecode = false →
    exec .accChecksumValid s = exec (.checksumValid s.acc false) s) ∧
  (∀ (s : State), s.accLen < 4 ∨ (s.cfg.accCheckRedecode = true ∧ rawReadable s.acc s.mode = false) → ∃ v : Bool,
    exec .accChecksumValid s = .next { s with freeCount := s.freeCount + 1, events := [], ret := .bool v })

/-! ### Feed and the input events -/

/-- R72, R110: a halted block returns; otherwise `Feed` is the composition of `Append`, `FrameComplete`, `AccChecksumValid`,
`ToFrame`, `ParseMux` and `Reset`, and a raised fault ends it where it stands. -/
def Obligations.FeedComposesTheOperations : Prop :=
  (∀ (s : State) (b : Byte), s.halted = true → exec (.feed b) s = returns s .none) ∧
  ∀ (s t : State) (b : Byte), s.halted = false → exec (.append b) s = .next t →
    (t.events ≠ [] → exec (.feed b) s = .next t) ∧
    (t.events = [] → ∀ u, exec .frameComplete t = .next u →
      let pre : List Event := if t.ret = .bool true then [.newFrame] else []
      (u.events ≠ [] → ∃ v, exec (.feed b) s = .next { u with events := pre ++ u.events, ret := v }) ∧
      (u.events = [] → u.ret = .bool false → exec (.feed b) s = .next { u with events := pre, ret := .none }) ∧
      (u.events = [] → u.ret = .bool true → ∀ v, exec .accChecksumValid u = .next v →
        let done : List Event → State := fun evs =>
          { u with acc := [], nCached := 0#16, escPending := false, events := pre ++ evs, ret := .none }
        (v.ret = .bool false → ∃ tag, u.acc[3]? = some tag ∧
          exec (.feed b) s = .next (done [.checksumFail u.nCached tag])) ∧
        (v.ret = .bool true → ∃ w f x r, exec .toFrame u = .next w ∧ w.ret = .frame f ∧
          exec (.parseMux f) u = .next x ∧ x.ret = .result r ∧ exec (.feed b) s = .next (done [.frameOut f r]))))

/-- R110, R172, R57: the last byte of a frame, the checksum right or wrong: the events, the `Reset`, nothing else. -/
def Obligations.LastByteDeliversOrDrops : Prop :=
  ∀ (s : State) (d hi lo tag ck : Byte) (q : List Byte), s.halted = false → s.acc = d :: hi :: lo :: tag :: q →
    q.length + 1 = hi.toNat * 256 + lo.toNat → (s.nCached = 0#16 ∨ s.nCached.toNat = q.length + 1) →
    s.escPending = false → ck ≠ 0x7E#8 → (ck ≠ 0x7D#8 ∨ s.mode = false) → s.accLen ≠ s.cfg.accCap →
    s.cfg.accCheckRedecode = false →
    let done : Event → State := fun ev => { s with acc := [], nCached := 0#16, events := [ev], ret := .none }
    ((natSum (tag :: q) + ck.toNat) % 256 = 255 → ∃ x r, exec (.parseMux ⟨d, tag :: q, ck, s.mode⟩) s = .next x ∧
      x.ret = .result r ∧ exec (.feed ck) s = .next (done (.frameOut ⟨d, tag :: q, ck, s.mode⟩ r))) ∧
    ((natSum (tag :: q) + ck.toNat) % 256 ≠ 255 → exec (.feed ck) s =
      .next (done (.checksumFail (BitVec.ofNat 16 (q.length + 1)) tag)))

/-- R16, R116, R185: a halted block ignores the three events; `HardReset`, and no other instruction, ends the halt; and no other
instruction raises anything further. That the single operations run on a halted block, and that R185 is read of them so (no bit set,
no fault emitted), is the model's choice (notes/assumptions/11.md), and the last clause rests on it. -/
def Obligations.HaltedBlockIgnoresEvents : Prop :=
  ∀ (s : State) (b : Byte) (m : Bool), s.fault ≠ 0#3 →
    exec (.feed b) s = returns s .none ∧
    exec .abort s = returns s .none ∧
    exec .endOfStream s = returns s .none ∧
    (∃ t, exec (.hardReset m) s = .next t ∧ t.fault = 0#3) ∧
    ∀ (i : Instr) (t : State), (∀ m, i ≠ .hardReset m) → exec i s = .next t →
      t.fault = s.fault ∧ ∀ c, Event.fault c ∉ t.events

/-- R111, R112, R180, R196: `Abort` performs `Reset()` and emits nothing; `EndOfStream` emits `EndOfFrames` and changes no
state. -/
def Obligations.AbortAndEndOfStream : Prop :=
  ∀ s : State, s.fault = 0#3 →
    exec .abort s = .next { s with acc := [], nCached := 0#16, escPending := false, events := [], ret := .none } ∧
    exec .endOfStream s = .next { s with events := [.endOfFrames], ret := .none }

/-- R26, R195: `HardReset(m)` in every state; and the elements of the reset state for which the spec gives a value. -/
def Obligations.HardResetCreatesTheDecoder : Prop :=
  (∀ (s : State) (m : Bool), exec (.hardReset m) s =
    .next { s with mode := m, acc := [], escPending := false, nCached := 0#16, fault := 0#3, events := [], ret := .none }) ∧
  State.reset.accLen = 0 ∧ State.reset.escPending = false ∧ State.reset.nCached = 0#16 ∧ State.reset.fault = 0#3

/-! ### Whole-machine rules -/

/-- R11, R16, R185, R195: no instruction but `HardReset` writes `mode` or clears a fault bit. -/
def Obligations.OnlyHardResetWritesModeOrClearsFaults : Prop :=
  ∀ (i : Instr) (s t : State), (∀ m, i ≠ .hardReset m) → exec i s = .next t →
    t.mode = s.mode ∧ s.fault &&& t.fault = s.fault

/-- R41, R88, R150: a pure operation reads and writes no state of the block. What it does in one state (the value it returns, or
its refusal) it does in every state with the same parameters, and only the value returned is new. -/
def Obligations.PureOperationsTouchNoState : Prop :=
  ∀ (i : Instr) (s u : State), isPure i = true → u.cfg = s.cfg →
    (∀ t, exec i s = .next t → exec i u = returns u t.ret) ∧
    (∀ r, exec i s = .refused r → exec i u = .refused r)

/-- R113, R110 corner case 3, R182: a step emits at most two events, at most one of them a fault, and never `NewFrame` with
`FrameOut`. -/
def Obligations.StepEmitsAtMostTwoEvents : Prop :=
  ∀ (i : Instr) (s t : State), exec i s = .next t →
    t.events.length ≤ 2 ∧
    (t.events.filter fun e => match e with | .fault _ => true | _ => false).length ≤ 1 ∧
    ∀ f r, ¬(Event.newFrame ∈ t.events ∧ Event.frameOut f r ∈ t.events)

/-- R13, R14, R18, R23, R25: the invariants hold at reset. -/
def Obligations.ResetMeetsTheInvariants : Prop := State.reset.Inv ∧ State.reset.InProgress

/-- R13, R14, R18, R23, R25: every step keeps the invariants, whatever the parameters, operation calls included. -/
def Obligations.StepKeepsTheInvariants : Prop :=
  ∀ s t : State, s.cfg.holdsDelimiter → s.Inv → step s = .next t → t.Inv

/-- R24: advanced by input events alone, a block that is not halted stays below the completion length. -/
def Obligations.EventStepKeepsFrameInProgress : Prop :=
  ∀ s t : State, s.cfg.sofClearsN = true → s.CacheAgrees → s.InProgress → s.nextIsEvent = true → step s = .next t →
    t.InProgress

/-- R24, R115, R177: with `ACC_CAP >= 65539` the overflow fault is unreachable through input events, and `acc_len` stays at
most 65538. -/
def Obligations.OverflowIsUnreachableThroughFeed : Prop :=
  ∀ s t : State, s.cfg.sofClearsN = true → 65539 ≤ s.cfg.accCap → s.CacheAgrees → s.InProgress →
    s.halted = false → s.nextIsEvent = true → step s = .next t → Event.fault .accOverflow ∉ t.events ∧ t.accLen ≤ 65538

/-- R117 (S3 with the restriction of C2): the wire bytes of a logical payload, fed to a fresh decoder of the same mode, emit
`NewFrame` at the first byte and the frame with that payload at the last, and leave the reset state. -/
def Obligations.EncodedFrameIsDelivered : Prop :=
  ∀ (s : State) (p : List Byte) (m : Bool) (rest : List Input), fresh m s → 1 ≤ p.length → p.length ≤ 65535 →
    p.length + 4 ≤ s.cfg.accCap → s.cfg.accCheckRedecode = false →
    (m = false → 0x7E#8 ∉ (wireSpec p m).tail) →
    s.input = (wireSpec p m).map .byte ++ rest →
    ∃ x r, exec (.parseMux ⟨0x7E#8, p, checksumSpec p, m⟩) s = .next x ∧ x.ret = .result r ∧
      (∃ t, trace 1 s = some (t, [.newFrame])) ∧
      trace (wireSpec p m).length s =
        some ({ s with input := rest, events := [.frameOut ⟨0x7E#8, p, checksumSpec p, m⟩ r], ret := .none },
          [.newFrame, .frameOut ⟨0x7E#8, p, checksumSpec p, m⟩ r])

/-- R114: the events and the end state depend on the bytes alone, not on how they are grouped into deliveries nor on how long
the block waits between two of them. That waiting is steps with no input pending, which change nothing but the outputs, is the
model's choice (notes/assumptions/20.md). -/
def Obligations.DeliveriesDoNotMatter : Prop :=
  ∀ (s : State) (xs ys : List Byte) (k : Nat), s.input = [] → ys ≠ [] →
    trace (xs.length + ys.length) (s.withInput ((xs ++ ys).map .byte)) =
      (trace xs.length (s.withInput (xs.map .byte))).bind fun r =>
        (trace k r.1).bind fun w =>
          (trace ys.length (w.1.withInput (ys.map .byte))).map fun q => (q.1, r.2 ++ w.2 ++ q.2)

/-! ### Primitives -/

/-- R89. -/
def Obligations.Be16IsBigEndian : Prop :=
  ∀ (s : State) (hi lo : Byte), ∃ v : Half, v.toNat = hi.toNat * 256 + lo.toNat ∧
    exec (.be16 hi lo) s = returns s (.half v)

/-- R52, R80, R81: the reserved set, and what `EscapeAppend` emits and answers. -/
def Obligations.EscapeAppendEscapesTheReservedSet : Prop :=
  ∀ (s : State) (m : Bool) (out : List Byte) (b : Byte),
    let reserved : Bool := decide (b ∈ [0x7E#8, 0x7D#8, 0x11#8, 0x13#8])
    exec (.shouldEscape b) s = returns s (.bool reserved) ∧
    exec (.escapeAppend m out b) s =
      returns s (.bytesBool (out ++ escapeSpec m b) (m && reserved))

/-- R82, the loop case by case: in unescaped mode the sequence itself; in escaped mode a lone marker, a marker and its byte,
any other byte, each followed by the rest. -/
def Obligations.UnescapeDecodesOnTheFly : Prop :=
  ∀ (s : State) (l out : List Byte) (flag : Bool) (b : Byte),
    exec (.unescape l false) s = returns s (.bytesBool l false) ∧
    exec (.unescape [] true) s = returns s (.bytesBool [] false) ∧
    exec (.unescape [0x7D#8] true) s = returns s (.bytesBool [] true) ∧
    (exec (.unescape l true) s = returns s (.bytesBool out flag) →
      exec (.unescape (0x7D#8 :: b :: l) true) s =
        returns s (.bytesBool ((b ^^^ 0x20#8) :: out) flag) ∧
      (b ≠ 0x7D#8 → exec (.unescape (b :: l) true) s =
        returns s (.bytesBool (b :: out) flag)))

/-- R82 (S1, for whole sequences): unescaping what was escaped gives it back, in both modes. -/
def Obligations.UnescapeInvertsEscape : Prop :=
  ∀ (s : State) (m : Bool) (p : List Byte), exec (.unescape (p.flatMap (escapeSpec m)) m) s =
    returns s (.bytesBool p false)

/-- R83, U5: the raw index of the frame-type byte, by the form of the two length bytes; and the refusal of fewer than 3 bytes in
either mode, of fewer than 4 where one length byte is escaped, and of fewer than 5 where both are. That U5's 4 belongs to one
escaped byte and its 5 to two is the model's reading (notes/assumptions/4.md). -/
def Obligations.FrameTypeOffsetSkipsMarkers : Prop :=
  ∀ (s : State) (raw q : List Byte) (m : Bool) (d hi lo e g : Byte),
    exec (.frameTypeOffset (d :: hi :: lo :: q) false) s = returns s (.nat 3) ∧
    (hi ≠ 0x7D#8 → lo ≠ 0x7D#8 → exec (.frameTypeOffset (d :: hi :: lo :: q) true) s = returns s (.nat 3)) ∧
    (hi ≠ 0x7D#8 → exec (.frameTypeOffset (d :: hi :: 0x7D#8 :: e :: q) true) s = returns s (.nat 4)) ∧
    (lo ≠ 0x7D#8 → exec (.frameTypeOffset (d :: 0x7D#8 :: e :: lo :: q) true) s = returns s (.nat 4)) ∧
    exec (.frameTypeOffset (d :: 0x7D#8 :: e :: 0x7D#8 :: g :: q) true) s = returns s (.nat 5) ∧
    (raw.length < 3 → exec (.frameTypeOffset raw m) s = .refused .rawTooShort) ∧
    (hi ≠ 0x7D#8 → exec (.frameTypeOffset [d, hi, 0x7D#8] true) s = .refused .rawTooShort) ∧
    exec (.frameTypeOffset [d, 0x7D#8, e] true) s = .refused .rawTooShort ∧
    exec (.frameTypeOffset [d, 0x7D#8, e, 0x7D#8] true) s = .refused .rawTooShort

/-- R84, R85, R86: the three functions on a raw sequence that `FrameTypeOffset` accepts, from that offset and the bytes unescaped
from there on; and their refusal of any other, which is U5's, by the model's reading of its lengths (notes/assumptions/4.md). -/
def Obligations.ChecksumFunctionsSumLogicalBytes : Prop :=
  ∀ (s : State) (raw : List Byte) (m : Bool),
    (rawReadable raw m = true → ∃ (o : Nat) (l : List Byte) (flag : Bool),
      exec (.frameTypeOffset raw m) s = returns s (.nat o) ∧
      exec (.unescape (raw.drop o) m) s = returns s (.bytesBool l flag) ∧
      exec (.logicalSum raw m) s = returns s (.byte (BitVec.ofNat 8 (natSum l % 256))) ∧
      exec (.checksum raw m) s = returns s (.byte (BitVec.ofNat 8 (255 - natSum l % 256))) ∧
      exec (.checksumValid raw m) s = returns s (.bool (decide (natSum l % 256 = 255)))) ∧
    (rawReadable raw m = false →
      exec (.frameTypeOffset raw m) s = .refused .rawTooShort ∧ exec (.logicalSum raw m) s = .refused .rawTooShort ∧
      exec (.checksum raw m) s = .refused .rawTooShort ∧ exec (.checksumValid raw m) s = .refused .rawTooShort)

/-! ### Parsers -/

/-- R121, R122, R133, R134: for each row of the multiplexer with a tag of its own, another tag answers `NOMATCH(TAG)` and a
length below `Nmin` answers `NOMATCH(SHORT)`. For a frame with no tag, and for the tags without a parser, this is the model's
choice (notes/assumptions/8.md).
Payloads above 65535 bytes are included by the model's choice (notes/assumptions/23.md). -/
def Obligations.ParsersCheckTagAndLength : Prop :=
  ∀ (s : State) (f : Frame) (i : Instr) (tag : Byte) (nmin : Nat),
    (i, tag, nmin) ∈ [(.modemStatus f, 0x8A#8, 2), (.extTxStatus f, 0x8B#8, 7), (.rxPacket f, 0x90#8, 12),
      (.rxIo f, 0x92#8, 16), (.nodeId f, 0x95#8, 22), (.ratResponse f, 0x97#8, 15), (.routeRecordSkip f, 0xA1#8, 1),
      (.txRequestInbound f, 0x10#8, 1), (.ratRequestInbound f, 0x17#8, 1)] →
    (∀ t, f.payload.head? = some t → t ≠ tag →
      exec i s = returns s (.result (.noMatch .tag))) ∧
    (f.payload.head? = some tag → f.payload.length < nmin →
      exec i s = returns s (.result (.noMatch .short))) ∧
    (f.payload = [] → exec i s = returns s (.result (.noMatch .short)))

/-- R124, R125, R58, R59: the fields of the two status packets.
Payloads above 65535 bytes are included by the model's choice (notes/assumptions/23.md). -/
def Obligations.StatusPacketFields : Prop :=
  (∀ (s : State) (f : Frame) (st : Byte) (rest : List Byte), f.payload = 0x8A#8 :: st :: rest →
    exec (.modemStatus f) s = returns s (.result (.modemStatus st))) ∧
  (∀ (s : State) (f : Frame) (fid n1 n0 rc ds di : Byte) (net : Half) (rest : List Byte),
    f.payload = 0x8B#8 :: fid :: n1 :: n0 :: rc :: ds :: di :: rest → net.toNat = n1.toNat * 256 + n0.toNat →
    exec (.extTxStatus f) s = returns s (.result (.extTxStatus ⟨fid, net, rc, ds, di⟩)))

/-- R126, R60: the data tail runs to offset `N - 1 - RX_TAIL_TRIM`.
Payloads above 65535 bytes are included by the model's choice (notes/assumptions/23.md). -/
def Obligations.RxPacketFields : Prop :=
  ∀ (s : State) (f : Frame) (a : Address) (n1 n0 op : Byte) (net : Half) (tail : List Byte),
    f.payload = 0x90#8 :: (a.toBytes ++ n1 :: n0 :: op :: tail) → net.toNat = n1.toNat * 256 + n0.toNat →
    exec (.rxPacket f) s = returns s (.result (.rxPacket ⟨a, net, op⟩ (tail.take (tail.length - s.cfg.rxTailTrim))))

/-- R127, R61: the fixed fields, the digital word present exactly when the digital mask is not 0, and the analog samples after
it, with `DigitalSamples` and `AnalogSamples` as R128 and R129 state them; a derived field that would pass the end of the payload
answers `NOMATCH(SHORT_TAIL)`.
Payloads above 65535 bytes are included by the model's choice (notes/assumptions/23.md). -/
def Obligations.RxIoFields : Prop :=
  ∀ (s : State) (f : Frame) (a : Address) (n1 n0 op ss d1 d0 am : Byte) (net mask : Half) (tail : List Byte),
    f.payload = 0x92#8 :: (a.toBytes ++ n1 :: n0 :: op :: ss :: d1 :: d0 :: am :: tail) →
    net.toNat = n1.toNat * 256 + n0.toNat → mask.toNat = d1.toNat * 256 + d0.toNat →
    let answer : ParseResult → Host.Outcome State Machine.Fault Refusal := fun r => returns s (.result r)
    (mask = 0#16 → 2 * (channels am).length ≤ tail.length → ∃ l,
      exec (.analogSamples am tail) s = returns s (.analog l) ∧
      exec (.rxIo f) s = answer (.rxIo ⟨⟨a, net, op⟩, ss, mask, am, [], l⟩)) ∧
    (mask = 0#16 → tail.length < 2 * (channels am).length → exec (.rxIo f) s = answer (.noMatch .shortTail)) ∧
    (mask ≠ 0#16 → tail.length < 2 → exec (.rxIo f) s = answer (.noMatch .shortTail)) ∧
    (mask ≠ 0#16 → ∀ (w1 w0 : Byte) (word : Half) (rest : List Byte), tail = w1 :: w0 :: rest →
      word.toNat = w1.toNat * 256 + w0.toNat →
      (2 * (channels am).length ≤ rest.length → ∃ g l,
        exec (.digitalSamples mask word) s = returns s (.digital g) ∧
        exec (.analogSamples am rest) s = returns s (.analog l) ∧
        exec (.rxIo f) s = answer (.rxIo ⟨⟨a, net, op⟩, ss, mask, am, g, l⟩)) ∧
      (rest.length < 2 * (channels am).length → exec (.rxIo f) s = answer (.noMatch .shortTail)))

/-- R128: bits 0 to 14 of the mask, ascending, each with the word's bit. -/
def Obligations.DigitalSamplesReadTheWord : Prop :=
  ∀ (s : State) (mask word : Half), ∃ l, exec (.digitalSamples mask word) s = returns s (.digital l) ∧
    l.map Prod.fst = (List.range 15).filter (fun k => mask.toNat / 2 ^ k % 2 = 1) ∧
    ∀ k v, (k, v) ∈ l → v = decide (word.toNat / 2 ^ k % 2 = 1)

/-- R129: two bytes for each set bit among 0, 1, 2, 3 and 7, in that order. That the function called alone answers
`NOMATCH(SHORT_TAIL)` where the bytes run out, as R127 has it of `Parse_92`, is the model's choice (notes/assumptions/16.md). -/
def Obligations.AnalogSamplesConsumeTwoBytesEach : Prop :=
  ∀ (s : State) (mask : Byte) (bytes : List Byte),
    (bytes.length < 2 * (channels mask).length →
      exec (.analogSamples mask bytes) s = returns s (.result (.noMatch .shortTail))) ∧
    (2 * (channels mask).length ≤ bytes.length →
      ∃ l : List (Nat × Half), exec (.analogSamples mask bytes) s = returns s (.analog l) ∧
        l.map Prod.fst = channels mask ∧
        ∀ (j : Nat) (hi lo : Byte) (c : Nat) (v : Half), l[j]? = some (c, v) → bytes[2 * j]? = some hi →
          bytes[2 * j + 1]? = some lo → v.toNat = hi.toNat * 256 + lo.toNat)

/-- R130, R62: the fixed fields, the identifier, its terminator and the device type; no terminator within `NI_MAX` characters or
within the payload; no room for the device type.
Payloads above 65535 bytes are included by the model's choice (notes/assumptions/23.md). -/
def Obligations.NodeIdFields : Prop :=
  ∀ (s : State) (f : Frame) (a r : Address) (n1 n0 op m1 m0 : Byte) (net rnet : Half) (tail : List Byte),
    f.payload = 0x95#8 :: (a.toBytes ++ n1 :: n0 :: op :: m1 :: m0 :: (r.toBytes ++ tail)) →
    net.toNat = n1.toNat * 256 + n0.toNat → rnet.toNat = m1.toNat * 256 + m0.toNat →
    (∀ (ident rest : List Byte) (d : Byte), tail = ident ++ 0x00#8 :: d :: rest → 0x00#8 ∉ ident →
      ident.length ≤ s.cfg.niMax → ∃ c,
      exec (.deviceTypeClass d) s = returns s (.deviceClass c) ∧
      exec (.nodeId f) s =
        returns s (.result (.nodeId ⟨⟨a, net, op⟩, rnet, r, ident, d, c⟩))) ∧
    (0x00#8 ∉ tail.take (s.cfg.niMax + 1) → exec (.nodeId f) s =
      returns s (.result (.noMatch .malformed))) ∧
    (∀ ident : List Byte, tail = ident ++ [0x00#8] → 0x00#8 ∉ ident → ident.length ≤ s.cfg.niMax →
      exec (.nodeId f) s = returns s (.result (.noMatch .shortTail)))

/-- R131, R71. -/
def Obligations.DeviceTypeClassOfByte : Prop :=
  ∀ (s : State) (d : Byte), exec (.deviceTypeClass d) s = returns s (.deviceClass
    (if d.toNat = 0 then .coordinator else if d.toNat = 1 then .router else if d.toNat = 2 then .endDevice else .undefined))

/-- R132, R63: the command data beyond offset 14 is in no field.
Payloads above 65535 bytes are included by the model's choice (notes/assumptions/23.md). -/
def Obligations.RatResponseFields : Prop :=
  ∀ (s : State) (f : Frame) (fid n1 n0 c0 c1 st : Byte) (a : Address) (net : Half) (rest : List Byte),
    f.payload = 0x97#8 :: fid :: (a.toBytes ++ n1 :: n0 :: c0 :: c1 :: st :: rest) →
    net.toNat = n1.toNat * 256 + n0.toNat →
    exec (.ratResponse f) s =
      returns s (.result (.ratResponse ⟨fid, a, net, c0, c1, st⟩))

/-- R133, R134, R120: what the multiplexer answers for a frame with no parser: 0xA1 is skipped, every other tag outside the six
is unrecognised (0x10 and 0x17 among them), and an empty payload answers `NOMATCH(EMPTY)`. The rows of those tags answer the
same.
Payloads above 65535 bytes are included by the model's choice (notes/assumptions/23.md). -/
def Obligations.TagsWithoutParser : Prop :=
  ∀ (s : State) (f : Frame) (tag : Byte) (q : List Byte), f.payload = tag :: q →
    (tag = 0xA1#8 → exec (.parseMux f) s = returns s (.result .skip) ∧
      exec (.routeRecordSkip f) s = returns s (.result .skip)) ∧
    (tag ∉ [0x8A#8, 0x8B#8, 0x90#8, 0x92#8, 0x95#8, 0x97#8, 0xA1#8] →
      exec (.parseMux f) s = returns s (.result (.unrecognised tag)) ∧
      (tag = 0x10#8 → exec (.txRequestInbound f) s = returns s (.result (.unrecognised tag))) ∧
      (tag = 0x17#8 → exec (.ratRequestInbound f) s = returns s (.result (.unrecognised tag))) ∧
      (tag ≠ 0x10#8 → tag ≠ 0x17#8 →
        exec (.otherTag f) s = returns s (.result (.unrecognised tag)))) ∧
    exec (.parseMux { f with payload := [] }) s = returns s (.result (.noMatch .empty))

/-- R129, R130, R135: the loops of the parsers are bounded: an identifier has at most `NI_MAX` characters, none of them 0, and a
sample packet at most 15 digital and 5 analog samples.
Payloads above 65535 bytes are included by the model's choice (notes/assumptions/23.md). -/
def Obligations.ParserLoopsAreBounded : Prop :=
  ∀ (s t : State) (f : Frame), exec (.parseMux f) s = .next t →
    (∀ p, t.ret = .result (.nodeId p) → p.nodeId.length ≤ s.cfg.niMax ∧ 0x00#8 ∉ p.nodeId) ∧
    (∀ p, t.ret = .result (.rxIo p) → p.digital.length ≤ 15 ∧ p.analog.length ≤ 5)

/-! ### Companion functions -/

/-- R155, R178, U17: the wire bytes of a payload that can be declared, the self-check never raised, which R155 itself marks as
derived; the refusal of one that cannot, above 65535 bytes by R155 and of length 0 by U17, as the model has it in
notes/assumptions/22.md. -/
def Obligations.EncodeFrameEmitsTheWire : Prop :=
  ∀ (s : State) (p : List Byte) (m : Bool),
    (1 ≤ p.length → p.length ≤ 65535 →
      exec (.encodeFrame p m) s = returns s (.bytes (wireSpec p m))) ∧
    (p.length = 0 ∨ 65535 < p.length → exec (.encodeFrame p m) s = .refused .payloadLength)

/-- R158: an encoded frame is valid, its bytes after the delimiter unescape to the length, the payload and the checksum, and the
bytes from `FrameTypeOffset` on to the payload and the checksum. -/
def Obligations.EncodedFrameIsConsistent : Prop :=
  ∀ (s t : State) (p wire : List Byte) (m : Bool), exec (.encodeFrame p m) s = .next t → t.ret = .bytes wire →
    exec (.checksumValid wire m) s = returns s (.bool true) ∧
    exec (.unescape wire.tail m) s = returns s (.bytesBool
      (BitVec.ofNat 8 (p.length / 256) :: BitVec.ofNat 8 (p.length % 256) :: (p ++ [checksumSpec p])) false) ∧
    ∃ o, exec (.frameTypeOffset wire m) s = returns s (.nat o) ∧
      exec (.unescape (wire.drop o) m) s = returns s (.bytesBool (p ++ [checksumSpec p]) false)

/-- R156, R157, R65, R66: the two builders are `EncodeFrame` of their logical payloads. The type-specific fixed bytes are the
spec's general-knowledge layout (D14). That the builders refuse by the length of the payload they build is the model's choice
(notes/assumptions/22.md). -/
def Obligations.BuildersEncodeTheirPayload : Prop :=
  ∀ (s : State) (a : Address) (fid c0 c1 : Byte) (d : List Byte) (m : Bool),
    (14 + d.length ≤ 65535 → exec (.buildTransmit a fid d m) s = returns s (.bytes
      (wireSpec ([0x10#8, fid] ++ a.toBytes ++ [0xFF#8, 0xFE#8, s.cfg.txRadius, s.cfg.txOptions] ++ d) m))) ∧
    (15 + d.length ≤ 65535 → exec (.buildRemoteATCommand a fid c0 c1 d m) s = returns s (.bytes
      (wireSpec ([0x17#8, fid] ++ a.toBytes ++ [0xFF#8, 0xFE#8, s.cfg.ratOptions, c0, c1] ++ d) m))) ∧
    (65535 < 14 + d.length → exec (.buildTransmit a fid d m) s = .refused .payloadLength) ∧
    (65535 < 15 + d.length → exec (.buildRemoteATCommand a fid c0 c1 d m) s = .refused .payloadLength)

/-- R151, R179. -/
def Obligations.AddressFromBytesNeedsEight : Prop :=
  ∀ (s : State) (l : List Byte),
    (l.length = 8 → ∃ a : Address, a.toBytes = l ∧
      exec (.addressFromBytes l) s = returns s (.address a)) ∧
    (l.length ≠ 8 → exec (.addressFromBytes l) s = returns s (.raised .invalidAddress))

/-- R152, R179: `0x` and 16 hex digits of either case, the earlier digit of a pair the high nibble; any other text raises. -/
def Obligations.AddressFromStringReadsHex : Prop :=
  ∀ (s : State) (t : Text),
    (∀ digits : Text, t = '0' :: 'x' :: digits → digits.length = 16 → (∀ c ∈ digits, ∃ v, (c, v) ∈ hexTable) →
      ∃ a : Address, exec (.addressFromString t) s = returns s (.address a) ∧
        ∀ (k h l : Nat) (hc lc : Char), digits[2 * k]? = some hc → digits[2 * k + 1]? = some lc →
          (hc, h) ∈ hexTable → (lc, l) ∈ hexTable → a.toBytes[k]? = some (BitVec.ofNat 8 (h * 16 + l))) ∧
    ((¬∃ digits : Text, t = '0' :: 'x' :: digits ∧ digits.length = 16 ∧ ∀ c ∈ digits, ∃ v, (c, v) ∈ hexTable) →
      exec (.addressFromString t) s = returns s (.raised .invalidAddress))

/-- R153, R69: the rendered form has 18 characters, `0x` and for each byte its two digits, high nibble first, in upper case only,
and it reads back. -/
def Obligations.AddressTextReadsBack : Prop :=
  ∀ (s : State) (a : Address), ∃ t : Text,
    exec (.addressToString a) s = returns s (.text t) ∧
    t.length = 18 ∧ t.take 2 = ['0', 'x'] ∧
    (∀ (k : Nat) (b : Byte), a.toBytes[k]? = some b → ∃ hc lc, t[2 * k + 2]? = some hc ∧ t[2 * k + 3]? = some lc ∧
      (hc, b.toNat / 16) ∈ hexTable ∧ (lc, b.toNat % 16) ∈ hexTable) ∧
    (∀ c ∈ t.drop 2, c ∈ ['0', '1', '2', '3', '4', '5', '6', '7', '8', '9', 'A', 'B', 'C', 'D', 'E', 'F']) ∧
    exec (.addressFromString t) s = returns s (.address a)
end

