-- ==== Sys2Proof/Laws/State.lean ====
section
/-! SUPPORT. One lemma per field and update of State, and the accumulator's addressed view. -/

namespace Sys2Proof.Machine

@[simp] theorem emit_mode (s : State) (evs : List Event) (v : Value) : (s.emit evs v).mode = s.mode := rfl
@[simp] theorem emit_acc (s : State) (evs : List Event) (v : Value) : (s.emit evs v).acc = s.acc := rfl
@[simp] theorem emit_escPending (s : State) (evs : List Event) (v : Value) : (s.emit evs v).escPending = s.escPending := rfl
@[simp] theorem emit_nCached (s : State) (evs : List Event) (v : Value) : (s.emit evs v).nCached = s.nCached := rfl
@[simp] theorem emit_fault (s : State) (evs : List Event) (v : Value) : (s.emit evs v).fault = s.fault := rfl
@[simp] theorem emit_cfg (s : State) (evs : List Event) (v : Value) : (s.emit evs v).cfg = s.cfg := rfl
@[simp] theorem emit_input (s : State) (evs : List Event) (v : Value) : (s.emit evs v).input = s.input := rfl
@[simp] theorem emit_events (s : State) (evs : List Event) (v : Value) : (s.emit evs v).events = evs := rfl
@[simp] theorem emit_ret (s : State) (evs : List Event) (v : Value) : (s.emit evs v).ret = v := rfl
@[simp] theorem emit_freeCount (s : State) (evs : List Event) (v : Value) : (s.emit evs v).freeCount = s.freeCount := rfl

@[simp] theorem storeByte_mode (v : Byte) (s : State) : (storeByte v s).mode = s.mode := rfl
@[simp] theorem storeByte_acc (v : Byte) (s : State) : (storeByte v s).acc = s.acc ++ [v] := rfl
@[simp] theorem storeByte_escPending (v : Byte) (s : State) : (storeByte v s).escPending = s.escPending := rfl
@[simp] theorem storeByte_nCached (v : Byte) (s : State) : (storeByte v s).nCached = s.nCached := rfl
@[simp] theorem storeByte_fault (v : Byte) (s : State) : (storeByte v s).fault = s.fault := rfl
@[simp] theorem storeByte_cfg (v : Byte) (s : State) : (storeByte v s).cfg = s.cfg := rfl
@[simp] theorem storeByte_input (v : Byte) (s : State) : (storeByte v s).input = s.input := rfl
@[simp] theorem storeByte_events (v : Byte) (s : State) : (storeByte v s).events = s.events := rfl
@[simp] theorem storeByte_ret (v : Byte) (s : State) : (storeByte v s).ret = s.ret := rfl
@[simp] theorem storeByte_freeCount (v : Byte) (s : State) : (storeByte v s).freeCount = s.freeCount := rfl

@[simp] theorem resetDecoder_mode (s : State) : (resetDecoder s).mode = s.mode := rfl
@[simp] theorem resetDecoder_acc (s : State) : (resetDecoder s).acc = [] := rfl
@[simp] theorem resetDecoder_escPending (s : State) : (resetDecoder s).escPending = false := rfl
@[simp] theorem resetDecoder_nCached (s : State) : (resetDecoder s).nCached = 0#16 := rfl
@[simp] theorem resetDecoder_fault (s : State) : (resetDecoder s).fault = s.fault := rfl
@[simp] theorem resetDecoder_cfg (s : State) : (resetDecoder s).cfg = s.cfg := rfl
@[simp] theorem resetDecoder_input (s : State) : (resetDecoder s).input = s.input := rfl
@[simp] theorem resetDecoder_events (s : State) : (resetDecoder s).events = s.events := rfl
@[simp] theorem resetDecoder_ret (s : State) : (resetDecoder s).ret = s.ret := rfl
@[simp] theorem resetDecoder_freeCount (s : State) : (resetDecoder s).freeCount = s.freeCount := rfl

@[simp] theorem hardResetState_mode (m : Bool) (s : State) : (hardResetState m s).mode = m := rfl
@[simp] theorem hardResetState_acc (m : Bool) (s : State) : (hardResetState m s).acc = [] := rfl
@[simp] theorem hardResetState_escPending (m : Bool) (s : State) : (hardResetState m s).escPending = false := rfl
@[simp] theorem hardResetState_nCached (m : Bool) (s : State) : (hardResetState m s).nCached = 0#16 := rfl
@[simp] theorem hardResetState_fault (m : Bool) (s : State) : (hardResetState m s).fault = 0#3 := rfl
@[simp] theorem hardResetState_cfg (m : Bool) (s : State) : (hardResetState m s).cfg = s.cfg := rfl
@[simp] theorem hardResetState_input (m : Bool) (s : State) : (hardResetState m s).input = s.input := rfl
@[simp] theorem hardResetState_events (m : Bool) (s : State) : (hardResetState m s).events = s.events := rfl
@[simp] theorem hardResetState_ret (m : Bool) (s : State) : (hardResetState m s).ret = s.ret := rfl
@[simp] theorem hardResetState_freeCount (m : Bool) (s : State) : (hardResetState m s).freeCount = s.freeCount := rfl

@[simp] theorem withInput_mode (s : State) (evs : List Input) : (s.withInput evs).mode = s.mode := rfl
@[simp] theorem withInput_acc (s : State) (evs : List Input) : (s.withInput evs).acc = s.acc := rfl
@[simp] theorem withInput_escPending (s : State) (evs : List Input) : (s.withInput evs).escPending = s.escPending := rfl
@[simp] theorem withInput_nCached (s : State) (evs : List Input) : (s.withInput evs).nCached = s.nCached := rfl
@[simp] theorem withInput_fault (s : State) (evs : List Input) : (s.withInput evs).fault = s.fault := rfl
@[simp] theorem withInput_cfg (s : State) (evs : List Input) : (s.withInput evs).cfg = s.cfg := rfl
@[simp] theorem withInput_input (s : State) (evs : List Input) : (s.withInput evs).input = s.input ++ evs := rfl
@[simp] theorem withInput_events (s : State) (evs : List Input) : (s.withInput evs).events = s.events := rfl
@[simp] theorem withInput_ret (s : State) (evs : List Input) : (s.withInput evs).ret = s.ret := rfl
@[simp] theorem withInput_freeCount (s : State) (evs : List Input) : (s.withInput evs).freeCount = s.freeCount := rfl

@[simp] theorem emit_emit (s : State) (e₁ e₂ : List Event) (v₁ v₂ : Value) :
    (s.emit e₁ v₁).emit e₂ v₂ = s.emit e₂ v₂ := rfl
@[simp] theorem emit_halted (s : State) (evs : List Event) (v : Value) : (s.emit evs v).halted = s.halted := rfl
@[simp] theorem emit_accLen (s : State) (evs : List Event) (v : Value) : (s.emit evs v).accLen = s.accLen := rfl
@[simp] theorem resetDecoder_accLen (s : State) : (resetDecoder s).accLen = 0 := rfl
@[simp] theorem resetDecoder_halted (s : State) : (resetDecoder s).halted = s.halted := rfl
@[simp] theorem storeByte_accLen (v : Byte) (s : State) : (storeByte v s).accLen = s.accLen + 1 := by
  simp [State.accLen]
@[simp] theorem storeByte_halted (v : Byte) (s : State) : (storeByte v s).halted = s.halted := rfl
@[simp] theorem hardResetState_halted (m : Bool) (s : State) : (hardResetState m s).halted = false := rfl

/-- The addressed view of the accumulator is in canonical form in every state. -/
theorem memory_wf (s : State) : Memory.wf s.memory = true := by
  unfold Memory.wf State.memory
  rw [decide_eq_true_iff, List.pairwise_map, List.pairwise_iff_getElem]
  intro i j hi hj hij
  simpa using hij

/-- A cell of the view is a valid index with its byte. -/
theorem mem_memory (s : State) (i : Nat) (b : Byte) : (i, b) ∈ s.memory ↔ s.acc[i]? = some b := by
  simp [State.memory, List.mem_zipIdx_iff_getElem?]

end Sys2Proof.Machine
end

