-- ==== Sys2Proof/Laws/Ops.lean ====
section
/-! SUPPORT. What each shared operation can do, said once: one inversion lemma per operation. -/

namespace Sys2Proof.Machine

/-! ### Fault entry -/

/-- What a fault's cause leaves (R184): the fault raised, its bit set; on a halted block nothing (R185). -/
def Stopped (c : FaultCode) (s t : State) (raised : Option FaultCode) : Prop :=
  (s.halted = false ∧ raised = some c ∧ t = { s with fault := s.fault ||| faultBit c }) ∨
    (s.halted = true ∧ raised = none ∧ t = s)

theorem raiseFault_ended {α : Type} {c : FaultCode} {s t : State} {r : Option FaultCode} :
    (raiseFault c s : Effect α) = .ended t r ↔ Stopped c s t r := by
  cases h : s.halted <;> simp [raiseFault, Stopped, h, eq_comm, and_comm]

theorem raiseFault_running {α : Type} {c : FaultCode} {s : State} (h : s.halted = false) :
    (raiseFault c s : Effect α) = .ended { s with fault := faultBit c } (some c) := by
  have : s.fault = 0#3 := by simpa [State.halted] using h
  simp [raiseFault, h, this]

theorem raiseFault_halted {α : Type} {c : FaultCode} {s : State} (h : s.halted = true) :
    (raiseFault c s : Effect α) = .ended s none := by simp [raiseFault, h]

@[simp] theorem raiseFault_ne_done {α : Type} {c : FaultCode} {s t : State} {a : α} :
    raiseFault c s ≠ .done t a := by
  unfold raiseFault; split <;> simp

@[simp] theorem faultEvents_eq_nil {c : Option FaultCode} : faultEvents c = [] ↔ c = none := by
  cases c <;> simp [faultEvents]

/-- The same outcome over another state. -/
def Effect.onState {α : Type} (e : Effect α) (f : State → State) : Effect α :=
  match e with
  | .done s a => .done (f s) a
  | .ended s c => .ended (f s) c

@[simp] theorem Effect.onState_done {α : Type} (s : State) (a : α) (f : State → State) :
    (Effect.done s a).onState f = .done (f s) a := rfl
@[simp] theorem Effect.onState_ended {α : Type} (s : State) (c : Option FaultCode) (f : State → State) :
    (Effect.ended s c : Effect α).onState f = .ended (f s) c := rfl

/-- The outputs of an earlier operation and the pending input do not matter to the entry. -/
theorem raiseFault_input {α : Type} (c : FaultCode) (s : State) (i : List Input) (e : List Event) (v : Value) :
    (raiseFault c { s with input := i, events := e, ret := v } : Effect α) =
      (raiseFault c s : Effect α).onState fun t => { t with input := i, events := e, ret := v } := by
  have hh : State.halted { s with input := i, events := e, ret := v } = s.halted := rfl
  unfold raiseFault
  rw [hh]
  cases s.halted <;> rfl

/-! ### Byte classes -/

@[simp] theorem byteClass_sof (m e : Bool) : byteClass m e 0x7E#8 = .sof := by simp [byteClass]

theorem byteClass_eq_sof {m e : Bool} {b : Byte} : byteClass m e b = .sof ↔ b = 0x7E#8 := by
  simp only [byteClass, sofByte, escByte]; split_ifs <;> simp_all

theorem byteClass_eq_esc {m e : Bool} {b : Byte} :
    byteClass m e b = .esc ↔ b = 0x7D#8 ∧ m = true ∧ e = false := by
  simp only [byteClass, sofByte, escByte]; split_ifs <;> simp_all

theorem byteClass_eq_escaped {m e : Bool} {b : Byte} :
    byteClass m e b = .escaped ↔ b ≠ 0x7E#8 ∧ e = true := by
  simp only [byteClass, sofByte, escByte]; split_ifs <;> simp_all

theorem byteClass_eq_data {m e : Bool} {b : Byte} :
    byteClass m e b = .data ↔ b ≠ 0x7E#8 ∧ e = false ∧ (b = 0x7D#8 → m = false) := by
  simp only [byteClass, sofByte, escByte]; split_ifs <;> simp_all

/-! ### Append -/

/-- Everything `Append` can do when it completes. -/
theorem append_done {b : Byte} {s t : State} {sof : Bool} (h : append b s = .done t sof) :
    (b = 0x7E#8 ∧ sof = true ∧
      t = { s with acc := [0x7E#8], escPending := false,
                   nCached := if s.cfg.sofClearsN then 0#16 else s.nCached }) ∨
    (b ≠ 0x7E#8 ∧ sof = false ∧ s.dropsIdle = true ∧ t = s) ∨
    (b = 0x7D#8 ∧ sof = false ∧ s.dropsIdle = false ∧ s.mode = true ∧ s.escPending = false ∧
      t = { s with escPending := true }) ∨
    (b ≠ 0x7E#8 ∧ sof = false ∧ s.dropsIdle = false ∧ s.escPending = true ∧ s.accLen ≠ s.cfg.accCap ∧
      t = { s with acc := s.acc ++ [flipBit5 b], escPending := false }) ∨
    (b ≠ 0x7E#8 ∧ sof = false ∧ s.dropsIdle = false ∧ s.escPending = false ∧
      (b = 0x7D#8 → s.mode = false) ∧ s.accLen ≠ s.cfg.accCap ∧ t = { s with acc := s.acc ++ [b] }) := by
  unfold append at h
  split at h
  · rename_i hc
    rw [byteClass_eq_sof] at hc
    simp only [appendSof, Effect.done.injEq] at h
    exact .inl ⟨hc, h.2.symm, h.1.symm⟩
  · rename_i hc
    obtain ⟨rfl, hm, he⟩ := byteClass_eq_esc.1 hc
    split at h
    · rename_i hd
      simp only [Effect.done.injEq] at h
      exact .inr (.inl ⟨by decide, h.2.symm, hd, h.1.symm⟩)
    · rename_i hd
      simp only [appendEsc, Effect.done.injEq] at h
      exact .inr (.inr (.inl ⟨rfl, h.2.symm, by simpa using hd, hm, he, h.1.symm⟩))
  · rename_i hc
    obtain ⟨hb, he⟩ := byteClass_eq_escaped.1 hc
    split at h
    · rename_i hd
      simp only [Effect.done.injEq] at h
      exact .inr (.inl ⟨hb, h.2.symm, hd, h.1.symm⟩)
    · rename_i hd
      unfold appendEscaped at h
      split at h
      · simp at h
      · rename_i hcap
        simp only [Effect.done.injEq] at h
        exact .inr (.inr (.inr (.inl ⟨hb, h.2.symm, by simpa using hd, he, hcap, h.1.symm⟩)))
  · rename_i hc
    obtain ⟨hb, he, hm⟩ := byteClass_eq_data.1 hc
    split at h
    · rename_i hd
      simp only [Effect.done.injEq] at h
      exact .inr (.inl ⟨hb, h.2.symm, hd, h.1.symm⟩)
    · rename_i hd
      unfold appendData at h
      split at h
      · simp at h
      · rename_i hcap
        simp only [Effect.done.injEq] at h
        exact .inr (.inr (.inr (.inr ⟨hb, h.2.symm, by simpa using hd, he, hm, hcap, h.1.symm⟩)))

/-- `Append` is ended only where it would store at capacity (R115). -/
theorem append_ended {b : Byte} {s t : State} {c : Option FaultCode} (h : append b s = .ended t c) :
    b ≠ 0x7E#8 ∧ s.accLen = s.cfg.accCap ∧ s.dropsIdle = false ∧ Stopped .accOverflow s t c := by
  unfold append at h
  split at h
  · simp [appendSof] at h
  · split at h <;> simp [appendEsc] at h
  · rename_i hc
    obtain ⟨hb, _⟩ := byteClass_eq_escaped.1 hc
    split at h
    · simp at h
    · rename_i hd
      unfold appendEscaped at h
      split at h
      · exact ⟨hb, ‹_›, by simpa using hd, raiseFault_ended.1 h⟩
      · simp at h
  · rename_i hc
    obtain ⟨hb, _⟩ := byteClass_eq_data.1 hc
    split at h
    · simp at h
    · rename_i hd
      unfold appendData at h
      split at h
      · exact ⟨hb, ‹_›, by simpa using hd, raiseFault_ended.1 h⟩
      · simp at h

/-! ### FrameComplete, ToFrame -/

/-- Everything `FrameComplete` can do when it completes. -/
theorem frameComplete_done {s t : State} {r : Bool} (h : frameComplete s = .done t r) :
    (s.accLen < 3 ∧ r = false ∧ t = s) ∨
    (3 ≤ s.accLen ∧ t = { s with nCached := measuredLength s } ∧
      r = lengthComplete s.accLen (measuredLength s) ∧
      (measuredLength s = 0#16 → s.cfg.zeroLenPolicy = .literal)) := by
  unfold frameComplete at h
  split at h
  · simp only [Effect.done.injEq] at h
    exact .inl ⟨‹_›, h.2.symm, h.1.symm⟩
  · rename_i hlen
    refine .inr ⟨by omega, ?_⟩
    simp only at h
    split at h
    · split at h
      · simp at h
      · rename_i hp
        simp only [Effect.done.injEq] at h
        exact ⟨h.1.symm, h.2.symm, fun _ => hp⟩
    · rename_i hn
      simp only [Effect.done.injEq] at h
      exact ⟨h.1.symm, h.2.symm, fun hz => absurd hz hn⟩

/-- A measured length of 0 is what `n_cached` holds already (R184). -/
theorem nCached_of_measured_zero {s : State} (h : measuredLength s = 0#16) : s.nCached = 0#16 := by
  unfold measuredLength at h
  split at h <;> assumption

/-- Nothing is written when a length of 0 is measured. -/
theorem setCached_of_measured_zero {s : State} (h : measuredLength s = 0#16) : { s with nCached := 0#16 } = s :=
  congrArg (fun n => { s with nCached := n }) (nCached_of_measured_zero h).symm

/-- R107: `FrameComplete` on a length of 0 under the policy `fault`. -/
theorem frameComplete_zero {s : State} (h3 : 3 ≤ s.accLen) (hm : measuredLength s = 0#16)
    (hp : s.cfg.zeroLenPolicy = .fault) : frameComplete s = raiseFault .zeroLen s := by
  unfold frameComplete
  rw [if_neg (by omega)]
  simp only [hm, hp, setCached_of_measured_zero hm, if_true]

/-- `FrameComplete` is ended only on a declared length of 0 (R107). -/
theorem frameComplete_ended {s t : State} {c : Option FaultCode} (h : frameComplete s = .ended t c) :
    3 ≤ s.accLen ∧ measuredLength s = 0#16 ∧ s.cfg.zeroLenPolicy = .fault ∧ Stopped .zeroLen s t c := by
  by_cases h3 : s.accLen < 3
  · simp [frameComplete, h3] at h
  · by_cases hm : measuredLength s = 0#16
    · cases hp : s.cfg.zeroLenPolicy with
      | fault =>
        rw [frameComplete_zero (by omega) hm hp] at h
        exact ⟨by omega, hm, rfl, raiseFault_ended.1 h⟩
      | literal => simp [frameComplete, h3, hm, hp] at h
    · simp [frameComplete, h3, hm] at h

/-- `FrameComplete` on a length that is not 0. -/
theorem frameComplete_measured {s : State} (h : 3 ≤ s.accLen) (hn : measuredLength s ≠ 0#16) :
    frameComplete s =
      .done { s with nCached := measuredLength s } (lengthComplete s.accLen (measuredLength s)) := by
  unfold frameComplete
  rw [if_neg (by omega)]
  simp [hn]
  rfl

/-- A completed accumulation holds exactly the declared length and the four other bytes (R106). -/
theorem frameComplete_true {s t : State} (h : frameComplete s = .done t true) :
    t = { s with nCached := measuredLength s } ∧ s.accLen = (measuredLength s).toNat + 4 := by
  obtain ⟨_, hr, _⟩ | ⟨_, rfl, hr, _⟩ := frameComplete_done h
  · simp at hr
  · exact ⟨rfl, by simpa [lengthComplete] using hr.symm⟩

/-- Asking again changes nothing (R106 corner case 3). -/
theorem frameComplete_again {s t : State} {r : Bool} (h : frameComplete s = .done t r) :
    frameComplete t = .done t r := by
  obtain ⟨hlen, rfl, rfl⟩ | ⟨hlen, rfl, rfl, hz⟩ := frameComplete_done h
  · exact h
  · have hm : measuredLength { s with nCached := measuredLength s } = measuredLength s := by
      by_cases h0 : measuredLength s = 0#16
      · rw [h0]; unfold measuredLength at h0 ⊢; split_ifs at h0 <;> simp_all
      · unfold measuredLength at h0 ⊢; exact if_neg h0
    unfold frameComplete
    have : ¬ State.accLen { s with nCached := measuredLength s } < 3 := by simpa [State.accLen] using hlen
    rw [if_neg this]
    simp only [hm]
    by_cases h0 : measuredLength s = 0#16
    · rw [if_pos h0]
      have := hz h0
      simp [this, State.accLen]
    · rw [if_neg h0]; rfl

/-- Everything `ToFrame` can do when it completes. -/
theorem toFrame_done {s t : State} {f : Frame} (h : toFrame s = .done t f) :
    frameComplete s = .done t true ∧ f = accFrame t := by
  unfold toFrame at h
  split at h
  · simp at h
  · simp at h
  · simp only [Effect.done.injEq] at h
    obtain ⟨rfl, rfl⟩ := h
    exact ⟨‹_›, rfl⟩

/-- What ends `ToFrame`: a declared length of 0, or an accumulation that is not complete (R108). -/
theorem toFrame_ended {s t : State} {c : Option FaultCode} (h : toFrame s = .ended t c) :
    (frameComplete s = .ended t c) ∨ ∃ u, frameComplete s = .done u false ∧ Stopped .invalidState u t c := by
  unfold toFrame at h
  split at h
  · simp only [Effect.ended.injEq] at h
    obtain ⟨rfl, rfl⟩ := h
    exact .inl ‹_›
  · exact .inr ⟨_, ‹_›, raiseFault_ended.1 h⟩
  · simp at h

/-- The frame of a completed accumulation has the declared length (R19, R108). -/
theorem accFrame_len {s t : State} (h : frameComplete s = .done t true) : (accFrame t).len = t.nCached.toNat := by
  obtain ⟨rfl, hl⟩ := frameComplete_true h
  simp only [Frame.len, accFrame, List.length_take, List.length_drop]
  unfold State.accLen at hl
  omega

/-- Every frame of the decoder's own fits its 16-bit length field (R19). -/
theorem accFrame_wf (s : State) : (accFrame s).wf = true := by
  have := s.nCached.isLt
  simp only [Frame.wf, Frame.len, accFrame, List.length_take, decide_eq_true_iff]
  omega

/-! ### The step for a byte -/

/-- Everything that follows `Append` in a step (R110). -/
theorem afterAppend_cases (s : State) (evs : List Event) :
    (∃ t, frameComplete s = .done t false ∧ afterAppend s evs = t.emit evs .none) ∨
    (∃ t c, frameComplete s = .ended t c ∧
      afterAppend s evs = t.emit (evs ++ faultEvents c) (endedValue c)) ∨
    (∃ t, frameComplete s = .done t true ∧ accChecksumValid t.cfg t.mode t.acc = true ∧
      afterAppend s evs =
        (resetDecoder t).emit (evs ++ [.frameOut (accFrame t) (parseMux t.cfg (accFrame t))]) .none) ∨
    (∃ t, frameComplete s = .done t true ∧ accChecksumValid t.cfg t.mode t.acc = false ∧
      afterAppend s evs = (resetDecoder t).emit (evs ++ [.checksumFail t.nCached (byteAt t.acc 3)]) .none) := by
  cases hf : frameComplete s with
  | ended t c => exact .inr (.inl ⟨t, c, rfl, by simp [afterAppend, hf]⟩)
  | done t r =>
    cases r with
    | false => exact .inl ⟨t, rfl, by simp [afterAppend, hf]⟩
    | true =>
      have ht : toFrame t = .done t (accFrame t) := by simp [toFrame, frameComplete_again hf]
      cases hv : accChecksumValid t.cfg t.mode t.acc with
      | true => exact .inr (.inr (.inl ⟨t, rfl, hv, by simp [afterAppend, hf, deliver, hv, ht]⟩))
      | false => exact .inr (.inr (.inr ⟨t, rfl, hv, by simp [afterAppend, hf, deliver, hv]⟩))

/-- Neither the pending input nor the outputs of an earlier operation matter to `FrameComplete`. -/
theorem frameComplete_input (s : State) (i : List Input) (e : List Event) (v : Value) :
    frameComplete { s with input := i, events := e, ret := v } =
      (frameComplete s).onState fun t => { t with input := i, events := e, ret := v } := by
  have hl : State.accLen { s with input := i, events := e, ret := v } = s.accLen := rfl
  have hm : measuredLength { s with input := i, events := e, ret := v } = measuredLength s := rfl
  by_cases h3 : s.accLen < 3
  · simp [frameComplete, hl, h3]
  · by_cases h0 : measuredLength s = 0#16
    · cases hp : s.cfg.zeroLenPolicy
      · simpa [frameComplete, hl, hm, h3, h0, hp] using raiseFault_input .zeroLen { s with nCached := 0#16 } i e v
      · simp [frameComplete, hl, hm, h3, h0, hp]; rfl
    · simp [frameComplete, hl, hm, h3, h0]; rfl

/-- The outputs of an earlier operation do not matter to `FrameComplete`. -/
theorem frameComplete_emit (s : State) (e : List Event) (v : Value) :
    frameComplete (s.emit e v) =
      (frameComplete s).onState fun t => t.emit e v := by
  have h := frameComplete_input s s.input e v
  refine Eq.trans h ?_
  cases hf : frameComplete s with
  | done t r => rcases frameComplete_done hf with ⟨_, _, rfl⟩ | ⟨_, rfl, _, _⟩ <;> rfl
  | ended t c => obtain ⟨_, _, _, ⟨_, _, rfl⟩ | ⟨_, _, rfl⟩⟩ := frameComplete_ended hf <;> rfl

/-- Nor to what follows it in a step. -/
theorem afterAppend_emit (s : State) (e evs : List Event) (v : Value) :
    afterAppend (s.emit e v) evs = afterAppend s evs := by
  have h := frameComplete_emit s e v
  rcases afterAppend_cases s evs with ⟨t, hf, he⟩ | ⟨t, c, hf, he⟩ | ⟨t, hf, hv, he⟩ | ⟨t, hf, hv, he⟩ <;>
    rw [hf] at h <;> rw [he] <;>
    rcases afterAppend_cases (s.emit e v) evs with
      ⟨t', hf', he'⟩ | ⟨t', c', hf', he'⟩ | ⟨t', hf', hv', he'⟩ | ⟨t', hf', hv', he'⟩ <;>
    rw [hf'] at h <;> rw [he'] <;> simp_all <;> rfl

/-- Neither the pending input nor the outputs of an earlier operation matter to `Append`. -/
theorem append_input (b : Byte) (s : State) (i : List Input) (e : List Event) (v : Value) :
    append b { s with input := i, events := e, ret := v } =
      (append b s).onState fun t => { t with input := i, events := e, ret := v } := by
  have hd : State.dropsIdle { s with input := i, events := e, ret := v } = s.dropsIdle := rfl
  have hl : State.accLen { s with input := i, events := e, ret := v } = s.accLen := rfl
  unfold append
  simp only [hd]
  cases byteClass s.mode s.escPending b
  · simp [appendSof]
  · cases s.dropsIdle <;> simp [appendEsc]
  · cases s.dropsIdle
    · by_cases h : s.accLen = s.cfg.accCap
      · simpa [appendEscaped, hl, h] using raiseFault_input .accOverflow s i e v
      · simp [appendEscaped, hl, h, storeByte]
    · simp
  · cases s.dropsIdle
    · by_cases h : s.accLen = s.cfg.accCap
      · simpa [appendData, hl, h] using raiseFault_input .accOverflow s i e v
      · simp [appendData, hl, h, storeByte]
    · simp

/-- Everything a step for a byte can do (R110, R116). -/
theorem feedState_cases (b : Byte) (s : State) :
    (s.halted = true ∧ feedState b s = s.emit [] .none) ∨
    (s.halted = false ∧ ∃ t c, append b s = .ended t c ∧
      feedState b s = t.emit (faultEvents c) (endedValue c)) ∨
    (s.halted = false ∧ ∃ t sof, append b s = .done t sof ∧
      feedState b s = afterAppend t (if sof then [.newFrame] else [])) := by
  cases hh : s.halted with
  | true => exact .inl ⟨rfl, by simp [feedState, hh]⟩
  | false =>
    cases ha : append b s with
    | done t sof => exact .inr (.inr ⟨rfl, t, sof, rfl, by simp [feedState, hh, ha]⟩)
    | ended t c => exact .inr (.inl ⟨rfl, t, c, rfl, by simp [feedState, hh, ha]⟩)

/-- Nor to the step for a byte. -/
theorem feedState_input (b : Byte) (s : State) (i : List Input) (e : List Event) (v : Value) :
    feedState b { s with input := i, events := e, ret := v } = { feedState b s with input := i } := by
  have ha := append_input b s i e v
  have hh : State.halted { s with input := i, events := e, ret := v } = s.halted := rfl
  rcases feedState_cases b s with ⟨h, r⟩ | ⟨h, t, c, h', r⟩ | ⟨h, t, sof, h', r⟩ <;> rw [r]
  · simp [feedState, hh, h, State.emit]
  · rw [h'] at ha
    simp [feedState, hh, h, ha, State.emit]
  · rw [h'] at ha
    simp only [feedState, hh, h, ha]
    have hf := frameComplete_input t i e v
    cases hc : frameComplete t with
    | ended u c => rw [hc] at hf; simp [afterAppend, hf, hc, State.emit]
    | done u q =>
      cases q with
      | false => rw [hc] at hf; simp [afterAppend, hf, hc, State.emit]
      | true =>
        rw [hc] at hf
        have ht : toFrame u = .done u (accFrame u) := by simp [toFrame, frameComplete_again hc]
        have ht' : toFrame { u with input := i, events := e, ret := v } =
            .done { u with input := i, events := e, ret := v } (accFrame u) := by
          simp [toFrame, frameComplete_input, frameComplete_again hc]; rfl
        cases hv : accChecksumValid u.cfg u.mode u.acc <;> simp [afterAppend, hf, hc, deliver, hv, ht, ht', State.emit, resetDecoder]

end Sys2Proof.Machine
end

