-- ==== Sys2Proof/Laws/Primitives.lean ====
section
/-! SUPPORT. One lemma or a few per primitive: what the escape, checksum and address functions compute. -/

namespace Sys2Proof.Machine

/-! ### Bytes and 16-bit words -/

@[simp] theorem flipBit5_flipBit5 (b : Byte) : flipBit5 (flipBit5 b) = b := by
  simp [flipBit5]

theorem be16_toNat (hi lo : Byte) : (be16 hi lo).toNat = hi.toNat * 256 + lo.toNat := by
  have h := hi.isLt
  have l := lo.isLt
  simp only [be16, BitVec.toNat_ofNat]
  omega

theorem be16_hiByte_loByte {n : Nat} (h : n < 65536) : be16 (hiByte n) (loByte n) = BitVec.ofNat 16 n := by
  apply BitVec.eq_of_toNat_eq
  rw [be16_toNat]
  simp only [hiByte, loByte, BitVec.toNat_ofNat]
  omega

@[simp] theorem byteAt_cons_zero (b : Byte) (l : List Byte) : byteAt (b :: l) 0 = b := rfl
@[simp] theorem byteAt_cons_succ (b : Byte) (l : List Byte) (k : Nat) : byteAt (b :: l) (k + 1) = byteAt l k := by
  simp [byteAt]

theorem byteAt_append_left {l r : List Byte} {k : Nat} (h : k < l.length) : byteAt (l ++ r) k = byteAt l k := by
  simp [byteAt, List.getElem?_append_left h]

theorem halfAt_append_left {l r : List Byte} {k : Nat} (h : k + 1 < l.length) : halfAt (l ++ r) k = halfAt l k := by
  simp [halfAt, byteAt_append_left h, byteAt_append_left (show k < l.length by omega)]

/-! ### Sums (R90) -/

theorem byteSum_append (l r : List Byte) : byteSum (l ++ r) = byteSum l + byteSum r := by
  induction l with
  | nil => simp [byteSum]
  | cons b bs ih => simp [byteSum, ih, BitVec.add_assoc]

theorem byteSum_toNat (l : List Byte) : (byteSum l).toNat = (l.map BitVec.toNat).sum % 256 := by
  induction l with
  | nil => rfl
  | cons b bs ih => simp [byteSum, BitVec.toNat_add, ih]

/-- R57: a payload and its checksum sum to 0xFF. -/
theorem byteSum_payloadChecksum (p : List Byte) : byteSum (p ++ [payloadChecksum p]) = 0xFF#8 := by
  rw [byteSum_append]
  simp only [byteSum, payloadChecksum]
  bv_omega

/-! ### Escaping (R80 to R82) -/

theorem shouldEscape_iff (b : Byte) :
    shouldEscape b = true ↔ b = 0x7E#8 ∨ b = 0x7D#8 ∨ b = 0x11#8 ∨ b = 0x13#8 := by
  simp [shouldEscape, or_assoc]

theorem escapeByte_false (b : Byte) : escapeByte false b = [b] := by simp [escapeByte]

/-- What is emitted for one byte: the byte itself, or the marker and the flipped byte. -/
theorem escapeByte_cases (m : Bool) (b : Byte) :
    (escapeByte m b = [b] ∧ (m = true → b ≠ 0x7E#8 ∧ b ≠ 0x7D#8)) ∨
    (m = true ∧ shouldEscape b = true ∧ escapeByte m b = [0x7D#8, flipBit5 b] ∧ flipBit5 b ≠ 0x7E#8) := by
  cases m with
  | false => exact .inl ⟨escapeByte_false b, by simp⟩
  | true =>
    cases h : shouldEscape b with
    | false =>
      refine .inl ⟨by simp [escapeByte, h], fun _ => ⟨?_, ?_⟩⟩ <;>
        (rintro rfl; revert h; decide)
    | true =>
      refine .inr ⟨rfl, rfl, by simp [escapeByte, h], ?_⟩
      rcases (shouldEscape_iff b).1 h with rfl | rfl | rfl | rfl <;> decide

/-- Decoding an escaped byte gives it back and leaves the flag clear. -/
theorem unescapeFrom_escapeByte (m : Bool) (b : Byte) (rest : List Byte) :
    unescapeFrom m false (escapeByte m b ++ rest) =
      (b :: (unescapeFrom m false rest).1, (unescapeFrom m false rest).2) := by
  rcases escapeByte_cases m b with ⟨h, hb⟩ | ⟨rfl, _, h, _⟩
  · rw [h]
    have : ¬ (m = true ∧ b = 0x7D#8) := fun hh => (hb hh.1).2 hh.2
    simp [unescapeFrom, this]
  · rw [h]; simp [unescapeFrom]

/-- Decoding escaped bytes gives them back and leaves the flag clear. -/
theorem unescapeFrom_escapeAll (m : Bool) (p rest : List Byte) :
    unescapeFrom m false (escapeAll m p ++ rest) =
      (p ++ (unescapeFrom m false rest).1, (unescapeFrom m false rest).2) := by
  induction p with
  | nil => simp [escapeAll]
  | cons b bs ih =>
    simp only [escapeAll, List.flatMap_cons, List.append_assoc]
    rw [unescapeFrom_escapeByte]
    simp only [escapeAll] at ih
    rw [ih]; simp

theorem unescapeFrom_false (l : List Byte) : unescapeFrom false false l = (l, false) := by
  induction l with
  | nil => rfl
  | cons b bs ih => simp [unescapeFrom, ih]

/-! ### The wire form of a frame (R155) -/

/-- The raw index of the tag of an encoded frame, and what stands from there on. -/
theorem frameTypeOffset_wire (x y : Byte) (rest : List Byte) (m : Bool) :
    ∃ o, frameTypeOffset (sofByte :: (escapeByte m x ++ escapeByte m y) ++ rest) m = some o ∧
      (sofByte :: (escapeByte m x ++ escapeByte m y) ++ rest).drop o = rest := by
  cases m with
  | false => exact ⟨3, by simp [frameTypeOffset, afterLengthByte, escapeByte_false]⟩
  | true =>
    rcases escapeByte_cases true x with ⟨hx, hx'⟩ | ⟨_, _, hx, _⟩ <;>
      rcases escapeByte_cases true y with ⟨hy, hy'⟩ | ⟨_, _, hy, _⟩ <;>
      rw [hx, hy] <;> simp_all [frameTypeOffset, afterLengthByte]

/-- The offset is 3, 4 or 5 and within the sequence (R83, U5). -/
theorem frameTypeOffset_some {raw : List Byte} {m : Bool} {o : Nat} (h : frameTypeOffset raw m = some o) :
    3 ≤ o ∧ o ≤ 5 ∧ o ≤ raw.length := by
  simp only [frameTypeOffset, afterLengthByte] at h
  split_ifs at h <;> simp_all <;> omega

/-- A sequence of 5 bytes or more has an offset, and so has one of 3 or 4 bytes in unescaped mode. -/
theorem frameTypeOffset_isSome {raw : List Byte} {m : Bool} (h : 5 ≤ raw.length ∨ (m = false ∧ 3 ≤ raw.length)) :
    (frameTypeOffset raw m).isSome = true := by
  simp only [frameTypeOffset, afterLengthByte]
  split_ifs <;> simp_all <;> omega

/-- R87 has a result on every completed accumulator, with either value of `ACC_CHECK_REDECODE`. -/
theorem accCheck_complete {s t : State} (h : frameComplete s = .done t true) :
    (accCheck t.cfg t.mode t.acc).isSome = true := by
  obtain ⟨rfl, hl⟩ := frameComplete_true h
  unfold State.accLen at hl
  unfold accCheck
  rw [if_neg (by simp only; omega)]
  split
  · simp only [checksumValid, logicalSum, Option.isSome_map]
    by_cases h5 : 5 ≤ s.acc.length
    · exact frameTypeOffset_isSome (.inl h5)
    · have hz : measuredLength s = 0#16 := by
        apply BitVec.eq_of_toNat_eq; simp; omega
      have hn := nCached_of_measured_zero hz
      rw [measuredLength, if_pos hn] at hz
      match hs : s.acc, hl with
      | [a, x, y, d], _ =>
        have : x = 0#8 ∧ y = 0#8 := by
          have := congrArg BitVec.toNat hz
          rw [halfAt, be16_toNat, hs] at this
          simp [byteAt] at this
          constructor <;> apply BitVec.eq_of_toNat_eq <;> simp <;> omega
        obtain ⟨rfl, rfl⟩ := this
        simp [frameTypeOffset, afterLengthByte, show ¬ (0#8 : Byte) = escByte by decide]
      | [], hl => simp at hl
      | [_], hl => simp at hl
      | [_, _], hl => simp at hl
      | [_, _, _], hl => simp at hl
      | _ :: _ :: _ :: _ :: _ :: r, _ => simp [hs] at h5
  · rfl

/-- The encoder's own output passes its self-check (R155 step 6, R178). -/
theorem checksumValid_wireBytes (p : List Byte) (m : Bool) : checksumValid (wireBytes p m) m = some true := by
  obtain ⟨o, ho, hd⟩ := frameTypeOffset_wire (hiByte p.length) (loByte p.length)
    (escapeAll m p ++ escapeByte m (payloadChecksum p)) m
  unfold checksumValid logicalSum wireBytes
  rw [List.append_assoc, ho]
  simp only [Option.map_some, unescape]
  rw [hd, unescapeFrom_escapeAll]
  have h := unescapeFrom_escapeByte m (payloadChecksum p) []
  rw [List.append_nil] at h
  rw [h]
  simp [unescapeFrom, byteSum_payloadChecksum]

/-! ### Hex text (R152, R153) -/

theorem byteOfHex_hexByte (b : Byte) :
    byteOfHex (hexDigit (b.toNat / 16)) (hexDigit (b.toNat % 16)) = some b := by
  revert b; decide

theorem bytesOfHex_hexByte (l : List Byte) : bytesOfHex (l.flatMap hexByte) = some l := by
  induction l with
  | nil => rfl
  | cons b bs ih => simp [hexByte, bytesOfHex, byteOfHex_hexByte] at ih ⊢; simp [ih]

end Sys2Proof.Machine
end

