-- ==== Sys2Proof/Laws/Exec.lean ====
section
/-! SUPPORT. What an instruction can do to the elements that no operation writes, and the shape of every outcome. -/

namespace Sys2Proof.Machine

/-- A decoder operation as an instruction completes or was ended. -/
theorem finish_next {α : Type} {e : Effect α} {v : α → Value} {t : State} (h : e.finish v = .next t) :
    (∃ s a, e = .done s a ∧ t = s.emit [] (v a)) ∨
    (∃ s c, e = .ended s c ∧ t = s.emit (faultEvents c) (endedValue c)) := by
  cases e with
  | done s a => simp only [Effect.finish, Host.Outcome.next.injEq] at h; exact .inl ⟨s, a, rfl, h.symm⟩
  | ended s c => simp only [Effect.finish, Host.Outcome.next.injEq] at h; exact .inr ⟨s, c, rfl, h.symm⟩

/-- A pure operation's outcome. -/
@[simp] theorem answer_next {s t : State} {v : Value} : s.answer v = .next t ↔ s.emit [] v = t := by
  simp [State.answer]

/-- The elements that the decoder operations leave alone: the parameters, the pending input and the free-value counter, and
`mode`. -/
def SameFrame (s t : State) : Prop :=
  t.mode = s.mode ∧ t.cfg = s.cfg ∧ t.input = s.input ∧ t.freeCount = s.freeCount

theorem SameFrame.trans {s t u : State} (h : SameFrame s t) (k : SameFrame t u) : SameFrame s u :=
  ⟨k.1.trans h.1, k.2.1.trans h.2.1, k.2.2.1.trans h.2.2.1, k.2.2.2.trans h.2.2.2⟩

theorem SameFrame.emit {s t : State} (h : SameFrame s t) (evs : List Event) (v : Value) : SameFrame s (t.emit evs v) := h

theorem SameFrame.resetDecoder {s t : State} (h : SameFrame s t) : SameFrame s (resetDecoder t) := h

theorem append_done_sameFrame {b : Byte} {s t : State} {r : Bool} (h : append b s = .done t r) : SameFrame s t := by
  rcases append_done h with ⟨_, _, rfl⟩ | ⟨_, _, _, rfl⟩ | ⟨_, _, _, _, _, rfl⟩ | ⟨_, _, _, _, _, rfl⟩ |
    ⟨_, _, _, _, _, _, rfl⟩ <;> exact ⟨rfl, rfl, rfl, rfl⟩

theorem append_ended_sameFrame {b : Byte} {s t : State} {c : Option FaultCode} (h : append b s = .ended t c) :
    SameFrame s t := by
  obtain ⟨_, _, _, ⟨_, _, rfl⟩ | ⟨_, _, rfl⟩⟩ := append_ended h <;> exact ⟨rfl, rfl, rfl, rfl⟩

theorem frameComplete_done_sameFrame {s t : State} {r : Bool} (h : frameComplete s = .done t r) : SameFrame s t := by
  rcases frameComplete_done h with ⟨_, _, rfl⟩ | ⟨_, rfl, _, _⟩ <;> exact ⟨rfl, rfl, rfl, rfl⟩

theorem frameComplete_ended_sameFrame {s t : State} {c : Option FaultCode} (h : frameComplete s = .ended t c) :
    SameFrame s t := by
  obtain ⟨_, _, _, ⟨_, _, rfl⟩ | ⟨_, _, rfl⟩⟩ := frameComplete_ended h <;> exact ⟨rfl, rfl, rfl, rfl⟩

theorem afterAppend_sameFrame (s : State) (evs : List Event) : SameFrame s (afterAppend s evs) := by
  rcases afterAppend_cases s evs with ⟨t, h, e⟩ | ⟨t, c, h, e⟩ | ⟨t, h, _, e⟩ | ⟨t, h, _, e⟩ <;> rw [e]
  · exact (frameComplete_done_sameFrame h).emit _ _
  · exact (frameComplete_ended_sameFrame h).emit _ _
  · exact (frameComplete_done_sameFrame h).resetDecoder.emit _ _
  · exact (frameComplete_done_sameFrame h).resetDecoder.emit _ _

theorem feedState_sameFrame (b : Byte) (s : State) : SameFrame s (feedState b s) := by
  rcases feedState_cases b s with ⟨_, e⟩ | ⟨_, t, c, h, e⟩ | ⟨_, t, sof, h, e⟩ <;> rw [e]
  · exact ⟨rfl, rfl, rfl, rfl⟩
  · exact (append_ended_sameFrame h).emit _ _
  · exact (append_done_sameFrame h).trans (afterAppend_sameFrame _ _)

/-- The minimum-length and tag checks of a parser, once: below the minimum, another tag, or the body (R122). -/
theorem guarded_cases (tag : Byte) (nmin : Nat) (f : Frame) (body : ParseResult) (hn : 1 ≤ nmin) :
    (f.len < nmin ∧ (f.payload = [] ∨ f.payload.head? = some tag) ∧ guarded tag nmin f body = .noMatch .short) ∨
    (∃ t, f.payload.head? = some t ∧ t ≠ tag ∧ guarded tag nmin f body = .noMatch .tag) ∨
    (f.payload.head? = some tag ∧ nmin ≤ f.len ∧ guarded tag nmin f body = body) := by
  unfold guarded
  cases hp : f.payload with
  | nil => exact .inl ⟨by simp [Frame.len, hp]; omega, .inl rfl, rfl⟩
  | cons t l =>
    by_cases ht : t = tag
    · subst ht
      by_cases hl : f.len < nmin
      · exact .inl ⟨hl, .inr rfl, by simp [hl]⟩
      · exact .inr (.inr ⟨rfl, by omega, by simp [hl]⟩)
    · exact .inr (.inl ⟨t, rfl, ht, by simp [ht]⟩)

end Sys2Proof.Machine
end

