-- ==== Sys2Proof/Laws/Parsers.lean ====
section
/-! SUPPORT. What the parsers' shared checks and loops compute. -/

namespace Sys2Proof.Machine

/-- A frame that passes the checks of R122. -/
theorem guarded_body {tag : Byte} {nmin : Nat} {f : Frame} {l : List Byte} {body : ParseResult}
    (hp : f.payload = tag :: l) (h : nmin ≤ l.length + 1) : guarded tag nmin f body = body := by
  simp [guarded, hp, Frame.len]; omega

/-- The identifier loop stops at the first zero byte within the bound (R130). -/
theorem nodeIdLength_terminator (l rest : List Byte) :
    ∀ n, l.length ≤ n → 0x00#8 ∉ l → nodeIdLength (l ++ 0x00#8 :: rest) n = l.length := by
  induction l with
  | nil => intro n _ _; cases n <;> simp [nodeIdLength]
  | cons b l ih =>
    intro n hn h0
    cases n with
    | zero => simp at hn
    | succ n => simp at h0 hn; simp [nodeIdLength, Ne.symm h0.1, ih n hn h0.2]

/-- Without a zero byte it runs to the bound or to the end of the bytes. -/
theorem nodeIdLength_no_terminator :
    ∀ (n : Nat) (l : List Byte), 0x00#8 ∉ l.take n → nodeIdLength l n = min n l.length := by
  intro n
  induction n with
  | zero => intro l _; cases l <;> simp [nodeIdLength]
  | succ n ih =>
    intro l h
    cases l with
    | nil => simp [nodeIdLength]
    | cons b l => simp at h; simp [nodeIdLength, Ne.symm h.1, ih l h.2]

/-- The identifier is within the bound and holds no zero byte (R130). -/
theorem nodeIdLength_le : ∀ (n : Nat) (l : List Byte),
    nodeIdLength l n ≤ n ∧ 0x00#8 ∉ l.take (nodeIdLength l n) := by
  intro n
  induction n with
  | zero => intro l; cases l <;> simp [nodeIdLength]
  | succ n ih =>
    intro l
    cases l with
    | nil => simp [nodeIdLength]
    | cons b l =>
      by_cases h : b = 0x00#8
      · simp [nodeIdLength, h]
      · have := ih l; simp only [nodeIdLength, h]; simp [Ne.symm h, this.1, this.2]

/-- The analog loop answers at most one reading for each channel (R129). -/
theorem analogFrom_length (mask : Byte) : ∀ (ks : List Nat) (bs : List Byte) (l : List (Nat × Half)),
    analogFrom mask ks bs = some l → l.length ≤ ks.length := by
  intro ks
  induction ks with
  | nil => intro bs l h; simp [analogFrom] at h; subst h; simp
  | cons k ks ih =>
    intro bs l h
    simp only [analogFrom] at h
    split_ifs at h
    · split at h
      · simp at h; obtain ⟨a, ha, rfl⟩ := h; have := ih _ _ ha; simp; omega
      · simp at h
    · have := ih _ _ h; simp; omega

/-- The digital samples are at most 15 (R128). -/
theorem digitalSamples_length (mask word : Half) : (digitalSamples mask word).length ≤ 15 := by
  have := List.length_filterMap_le
    (fun k => if mask.getLsbD k then some (k, word.getLsbD k) else none) (List.range 15)
  simpa [digitalSamples] using this

end Sys2Proof.Machine
end

