-- ==== Sys2Proof/Tests/Slice0.lean ====
section
/-! SUPPORT. Tests: ill-formed terms, words decoded, one small test or two per instruction with the values of
95_test_vectors.md, and a witness for the hypotheses of every statement. -/

open Sys2Proof Sys2Proof.Machine Sys2Proof.Statements

namespace Sys2Proof.Tests

/-! ### Helpers -/

/-- The next state of an outcome. -/
def nextOf : Host.Outcome State Machine.Fault Refusal → Option State
  | .next t => some t
  | .fault _ => none
  | .refused _ => none

/-- The refusal of an outcome. -/
def refusalOf : Host.Outcome State Machine.Fault Refusal → Option Refusal
  | .refused r => some r
  | .next _ => none
  | .fault _ => none

/-- What an operation returned. -/
def retOf (o : Host.Outcome State Machine.Fault Refusal) : Option Value := (nextOf o).map State.ret

/-- What a step emitted. -/
def eventsOf (o : Host.Outcome State Machine.Fault Refusal) : Option (List Event) := (nextOf o).map State.events

/-- The end state as 95_test_vectors.md writes it: `(acc; esc_pending; n_cached; fault)`. -/
def view (s : State) : List Byte × Bool × Half × BitVec 3 := (s.acc, s.escPending, s.nCached, s.fault)

/-- The view after an operation. -/
def viewOf (o : Host.Outcome State Machine.Fault Refusal) : Option (List Byte × Bool × Half × BitVec 3) :=
  (nextOf o).map view

/-- A decoder in a given state. -/
def dec (m : Bool) (acc : List Byte) (e : Bool) (n : Half) : State :=
  { State.reset with mode := m, acc := acc, escPending := e, nCached := n }

/-- The same with other parameters. -/
def tune (s : State) (f : Config → Config) : State := { s with cfg := f s.cfg }

/-- A logical frame of an unescaped wire. -/
def frameOf (p : List Byte) (ck : Byte) : Frame := ⟨0x7E#8, p, ck, false⟩

/-- The address that most vectors use. -/
def addr : Address := ⟨0x00#8, 0x13#8, 0xA2#8, 0x00#8, 0x40#8, 0x52#8, 0x2B#8, 0xAA#8⟩

/-! ### WellFormed: an ill-formed term for each check -/

theorem test_wf_escaped_delimiter : (Instr.escaped 0x7E#8).wf = false := by decide
theorem test_wf_data_delimiter : (Instr.data 0x7E#8).wf = false := by decide
theorem test_wf_frame_too_long :
    (Instr.parseMux (frameOf (List.replicate 65536 0x00#8) 0xFF#8)).wf = false ∧
    (Instr.otherTag (frameOf (List.replicate 65536 0x00#8) 0xFF#8)).wf = false := by
  simp only [Instr.wf, Frame.wf, Frame.len, frameOf, List.length_replicate]; decide
theorem test_wf_raw_too_short :
    (Instr.frameTypeOffset [0x7E#8] true).wf = false ∧ (Instr.logicalSum [0x7E#8, 0x00#8] true).wf = false ∧
    (Instr.checksum [0x7E#8, 0x7D#8, 0x31#8] true).wf = false ∧ (Instr.checksumValid [] true).wf = false := by decide
theorem test_wf_empty_payload : (Instr.encodeFrame [] true).wf = false := by decide
theorem test_wf_payload_too_long :
    (Instr.encodeFrame (List.replicate 65536 0x00#8) true).wf = false ∧
    (Instr.buildTransmit addr 1#8 (List.replicate 65522 0x00#8) true).wf = false ∧
    (Instr.buildRemoteATCommand addr 1#8 0x44#8 0x30#8 (List.replicate 65521 0x00#8) true).wf = false := by
  simp only [Instr.wf, payloadFits, List.length_replicate]; decide
theorem test_wf_accepts :
    (Instr.escaped 0x33#8).wf = true ∧ (Instr.encodeFrame [0x8A#8] true).wf = true ∧
    (Instr.frameTypeOffset [0x7E#8, 0x00#8, 0x02#8] true).wf = true := by decide

/-! ### Decode: words written out from R53, R55 and R56 -/

theorem test_decode_bytes :
    decode false false (.byte 0x7E#8) = .ok .sof ∧ decode true true (.byte 0x7E#8) = .ok .sof ∧
    decode true false (.byte 0x7D#8) = .ok .esc ∧ decode false false (.byte 0x7D#8) = .ok (.data 0x7D#8) ∧
    decode true true (.byte 0x7D#8) = .ok (.escaped 0x7D#8) ∧ decode true true (.byte 0x5E#8) = .ok (.escaped 0x5E#8) ∧
    decode true false (.byte 0x11#8) = .ok (.data 0x11#8) := by
  refine ⟨rfl, rfl, rfl, rfl, rfl, rfl, rfl⟩
theorem test_decode_pairs :
    decode true false (.pair 0x7D#8 0x5E#8) = .ok .escSeq7E ∧ decode true false (.pair 0x7D#8 0x5D#8) = .ok .escSeq7D ∧
    decode true false (.pair 0x7D#8 0x31#8) = .ok .escSeq11 ∧ decode true false (.pair 0x7D#8 0x33#8) = .ok .escSeq13 ∧
    decode true false (.pair 0x7D#8 0x41#8) = .error .notAnEscapeSequence ∧
    decode true false (.pair 0x7E#8 0x5E#8) = .error .notAnEscapeSequence := by
  refine ⟨rfl, rfl, rfl, rfl, rfl, rfl⟩
theorem test_decode_tags (q : List Byte) (ck : Byte) :
    decodeFrame (frameOf (0x8A#8 :: q) ck) = .ok (.modemStatus (frameOf (0x8A#8 :: q) ck)) ∧
    decodeFrame (frameOf (0x8B#8 :: q) ck) = .ok (.extTxStatus (frameOf (0x8B#8 :: q) ck)) ∧
    decodeFrame (frameOf (0x90#8 :: q) ck) = .ok (.rxPacket (frameOf (0x90#8 :: q) ck)) ∧
    decodeFrame (frameOf (0x92#8 :: q) ck) = .ok (.rxIo (frameOf (0x92#8 :: q) ck)) ∧
    decodeFrame (frameOf (0x95#8 :: q) ck) = .ok (.nodeId (frameOf (0x95#8 :: q) ck)) ∧
    decodeFrame (frameOf (0x97#8 :: q) ck) = .ok (.ratResponse (frameOf (0x97#8 :: q) ck)) ∧
    decodeFrame (frameOf (0xA1#8 :: q) ck) = .ok (.routeRecordSkip (frameOf (0xA1#8 :: q) ck)) ∧
    decodeFrame (frameOf (0x10#8 :: q) ck) = .ok (.txRequestInbound (frameOf (0x10#8 :: q) ck)) ∧
    decodeFrame (frameOf (0x17#8 :: q) ck) = .ok (.ratRequestInbound (frameOf (0x17#8 :: q) ck)) ∧
    decodeFrame (frameOf (0x42#8 :: q) ck) = .ok (.otherTag (frameOf (0x42#8 :: q) ck)) ∧
    decodeFrame (frameOf [] ck) = .error .emptyPayload := by
  refine ⟨rfl, rfl, rfl, rfl, rfl, rfl, rfl, rfl, rfl, rfl, rfl⟩
theorem test_table_words :
    (decodeTableWord 8 0x7E = some .sof ∧ decodeTableWord 8 0x7D = some .esc ∧
      decodeTableWord 16 0x7D5E = some .escSeq7E ∧ decodeTableWord 16 0x5E7D = none ∧ decodeTableWord 24 0x7E = none) ∧
    (decodeTableWord 8 0x92).map (fun i => i.wf && i.fits true false) = some true := by decide

/-- R72, script lines. -/
theorem test_script :
    decodeScript ["hardreset mode=1".toList, "feed 7E 0a  7d # a comment".toList, "# nothing".toList, "abort".toList,
      "eos".toList] =
      .ok [.hardReset true, .feed 0x7E#8, .feed 0x0A#8, .feed 0x7D#8, .abort, .endOfStream] ∧
    decodeScript ["feed".toList] = .error .unknownDirective ∧ decodeScript ["feed 7".toList] = .error .unknownDirective ∧
    decodeScript ["halt".toList] = .error .unknownDirective := by
  refine ⟨rfl, rfl, rfl, rfl⟩

/-! ### The step on a table word -/

theorem test_fetch_byte :
    eventsOf (step (State.reset.withFetchWord 8 0x7E)) = some [.newFrame] ∧
    viewOf (step (State.reset.withFetchWord 8 0x7E)) = some ([0x7E#8], false, 0#16, 0#3) ∧
    viewOf (step (State.reset.withFetchWord 8 0x7D)) = some ([], true, 0#16, 0#3) ∧
    viewOf (step (State.reset.withFetchWord 8 0x41)) = some ([0x41#8], false, 0#16, 0#3) := by decide
theorem test_fetch_pair :
    viewOf (step ((dec true [] false 0#16).withFetchWord 16 0x7D31)) = some ([0x11#8], false, 0#16, 0#3) := by decide
theorem test_fetch_tag :
    eventsOf (step (State.reset.withFetchWord 8 0x8A)) =
      some [.frameOut (tagFrame false 0x8A#8) (.modemStatus 0x00#8)] := by decide

/-! ### Byte classes and Append (R101 to R105, R115) -/

theorem test_sof : viewOf (exec .sof (dec false [0x7E#8, 0x00#8, 0x07#8, 0x8B#8, 0x52#8] false 7#16)) =
    some ([0x7E#8], false, 0#16, 0#3) := by decide
theorem test_sof_keeps_n : viewOf (exec .sof
    (tune (dec false [0x7E#8, 0x00#8, 0x05#8, 0x8A#8] false 5#16) fun c => { c with sofClearsN := false })) =
    some ([0x7E#8], false, 5#16, 0#3) := by decide
theorem test_esc : viewOf (exec .esc (dec true [0x7E#8, 0x00#8, 0x02#8, 0x8A#8] false 2#16)) =
    some ([0x7E#8, 0x00#8, 0x02#8, 0x8A#8], true, 2#16, 0#3) := by decide
theorem test_escaped : viewOf (exec (.escaped 0x33#8) (dec true [0x7E#8, 0x00#8, 0x02#8, 0x8A#8] true 2#16)) =
    some ([0x7E#8, 0x00#8, 0x02#8, 0x8A#8, 0x13#8], false, 2#16, 0#3) := by decide
theorem test_data : viewOf (exec (.data 0x02#8) (dec false [0x7E#8, 0x00#8] false 0#16)) =
    some ([0x7E#8, 0x00#8, 0x02#8], false, 0#16, 0#3) := by decide
/-- V-X4. -/
theorem test_data_overflow : viewOf (exec (.data 0x05#8)
    (tune (dec false (List.replicate 8 0x01#8) false 10#16) fun c => { c with accCap := 8 })) =
    some (List.replicate 8 0x01#8, false, 10#16, 0b100#3) := by decide
/-- R185: on a halted block nothing further is raised. -/
theorem test_data_overflow_halted :
    (nextOf (exec (.data 0x05#8) { tune (dec false (List.replicate 8 0x01#8) false 10#16) fun c => { c with accCap := 8 } with
      fault := 0b001#3 })).map (fun t => (view t, t.events)) =
    some ((List.replicate 8 0x01#8, false, 10#16, 0b001#3), []) := by decide
theorem test_escSeq_a :
    viewOf (exec .escSeq7E (dec true [0x7E#8] false 0#16)) = some ([0x7E#8, 0x7E#8], false, 0#16, 0#3) ∧
    viewOf (exec .escSeq7D (dec true [0x7E#8] false 0#16)) = some ([0x7E#8, 0x7D#8], false, 0#16, 0#3) := by decide
theorem test_escSeq_b :
    viewOf (exec .escSeq11 (dec true [0x7E#8] false 0#16)) = some ([0x7E#8, 0x11#8], false, 0#16, 0#3) ∧
    viewOf (exec .escSeq13 (dec true [0x7E#8] false 0#16)) = some ([0x7E#8, 0x13#8], false, 0#16, 0#3) := by decide
/-- V-D6, V-D24. -/
theorem test_append :
    viewOf (exec (.append 0x7D#8) (dec true [0x7E#8] true 0#16)) = some ([0x7E#8, 0x5D#8], false, 0#16, 0#3) ∧
    viewOf (exec (.append 0x41#8) (dec true [] true 0#16)) = some ([0x61#8], false, 0#16, 0#3) := by decide
/-- V-D13, V-D24 with `IDLE_DROP = 1`. -/
theorem test_append_idle : viewOf (exec (.append 0x7D#8) (tune (dec true [] false 0#16) fun c => { c with idleDrop := true })) =
    some ([], false, 0#16, 0#3) := by decide

/-! ### FrameComplete, ToFrame, Reset, the checksum of the accumulator -/

theorem test_frameComplete :
    retOf (exec .frameComplete (dec false [0x7E#8, 0x00#8, 0x02#8, 0x8A#8, 0x00#8, 0x75#8] false 0#16)) = some (.bool true) ∧
    viewOf (exec .frameComplete (dec false [0x7E#8, 0x00#8, 0x02#8, 0x8A#8, 0x00#8] false 0#16)) =
      some ([0x7E#8, 0x00#8, 0x02#8, 0x8A#8, 0x00#8], false, 2#16, 0#3) := by decide
/-- V-X1, and the answer of R107. -/
theorem test_frameComplete_zero :
    viewOf (exec .frameComplete (dec false [0x7E#8, 0x00#8, 0x00#8] false 0#16)) =
      some ([0x7E#8, 0x00#8, 0x00#8], false, 0#16, 0b010#3) ∧
    eventsOf (exec .frameComplete (dec false [0x7E#8, 0x00#8, 0x00#8] false 0#16)) = some [.fault .zeroLen] ∧
    retOf (exec .frameComplete (dec false [0x7E#8, 0x00#8, 0x00#8] false 0#16)) = some (.bool false) := by decide
theorem test_toFrame :
    retOf (exec .toFrame (dec false [0x7E#8, 0x00#8, 0x02#8, 0x8A#8, 0x00#8, 0x75#8] false 2#16)) =
      some (.frame ⟨0x7E#8, [0x8A#8, 0x00#8], 0x75#8, false⟩) := by decide
/-- V-X3; and on a halted block nothing further is raised (R185). -/
theorem test_toFrame_early :
    viewOf (exec .toFrame (dec false [0x7E#8, 0x00#8, 0x02#8, 0x8A#8] false 2#16)) =
      some ([0x7E#8, 0x00#8, 0x02#8, 0x8A#8], false, 2#16, 0b001#3) ∧
    (nextOf (exec .toFrame { dec false [0x7E#8, 0x00#8, 0x02#8, 0x8A#8] false 2#16 with fault := 0b100#3 })).map
      (fun t => (t.fault, t.events)) = some (0b100#3, []) := by decide
theorem test_reset : viewOf (exec .reset (dec true [0x7E#8, 0x00#8, 0x02#8, 0x8A#8, 0x00#8, 0x74#8] true 2#16)) =
    some ([], false, 0#16, 0#3) := by decide
/-- V-P15. -/
theorem test_accChecksumValid :
    retOf (exec .accChecksumValid (dec true [0x7E#8, 0x00#8, 0x02#8, 0x8A#8, 0x7D#8, 0xF8#8] false 2#16)) =
      some (.bool true) ∧
    retOf (exec .accChecksumValid (tune (dec true [0x7E#8, 0x00#8, 0x02#8, 0x8A#8, 0x7D#8, 0xF8#8] false 2#16)
      fun c => { c with accCheckRedecode := true })) = some (.bool false) := by decide

/-! ### Feed and the host events -/

/-- V-D1, the last step. -/
theorem test_feed_frame :
    eventsOf (exec (.feed 0x75#8) (dec false [0x7E#8, 0x00#8, 0x02#8, 0x8A#8, 0x00#8] false 2#16)) =
      some [.frameOut (frameOf [0x8A#8, 0x00#8] 0x75#8) (.modemStatus 0x00#8)] ∧
    viewOf (exec (.feed 0x75#8) (dec false [0x7E#8, 0x00#8, 0x02#8, 0x8A#8, 0x00#8] false 2#16)) =
      some ([], false, 0#16, 0#3) := by decide
/-- V-D21, V-X1. -/
theorem test_feed_bad :
    eventsOf (exec (.feed 0x74#8) (dec false [0x7E#8, 0x00#8, 0x02#8, 0x8A#8, 0x00#8] false 2#16)) =
      some [.checksumFail 2#16 0x8A#8] ∧
    eventsOf (exec (.feed 0x00#8) (dec false [0x7E#8, 0x00#8] false 0#16)) = some [.fault .zeroLen] := by decide
/-- V-X5. -/
theorem test_abort : viewOf (exec .abort (dec true [0x7E#8, 0x00#8, 0x02#8, 0x8A#8] true 2#16)) =
    some ([], false, 0#16, 0#3) := by decide
/-- V-X6. -/
theorem test_endOfStream :
    eventsOf (exec .endOfStream (dec false [0x7E#8, 0x00#8, 0x02#8, 0x8A#8] false 2#16)) = some [.endOfFrames] ∧
    viewOf (exec .endOfStream (dec false [0x7E#8, 0x00#8, 0x02#8, 0x8A#8] false 2#16)) =
      some ([0x7E#8, 0x00#8, 0x02#8, 0x8A#8], false, 2#16, 0#3) := by decide
/-- V-X8, and P5 step 11: a halted block ignores events. -/
theorem test_hardReset :
    (nextOf (exec (.hardReset true) { dec false [0x7E#8, 0x00#8, 0x00#8] false 0#16 with fault := 0b010#3 })).map
      (fun t => (t.mode, view t)) = some (true, [], false, 0#16, 0#3) ∧
    eventsOf (exec .endOfStream { dec false [0x7E#8, 0x00#8, 0x00#8] false 0#16 with fault := 0b010#3 }) = some [] := by
  decide

/-! ### Primitives -/

/-- V-P14. -/
theorem test_be16 : retOf (exec (.be16 0x12#8 0x34#8) State.reset) = some (.half 4660#16) ∧
    retOf (exec (.be16 0xFF#8 0xFF#8) State.reset) = some (.half 65535#16) := by decide
/-- V-P1. -/
theorem test_shouldEscape :
    ((List.range 256).filter fun k => shouldEscape (BitVec.ofNat 8 k)) = [0x11, 0x13, 0x7D, 0x7E] := by decide
/-- V-P2, V-P3, V-P4. -/
theorem test_escapeAppend :
    retOf (exec (.escapeAppend true [] 0x11#8) State.reset) = some (.bytesBool [0x7D#8, 0x31#8] true) ∧
    retOf (exec (.escapeAppend true [] 0x31#8) State.reset) = some (.bytesBool [0x31#8] false) ∧
    retOf (exec (.escapeAppend false [] 0x7E#8) State.reset) = some (.bytesBool [0x7E#8] false) := by decide
/-- V-P5, V-P7. -/
theorem test_unescape :
    retOf (exec (.unescape [0x7D#8, 0x5E#8, 0x41#8, 0x7D#8, 0x5D#8, 0x7D#8] true) State.reset) =
      some (.bytesBool [0x7E#8, 0x41#8, 0x7D#8] true) ∧
    retOf (exec (.unescape [0x7D#8, 0x7D#8, 0x41#8] true) State.reset) = some (.bytesBool [0x5D#8, 0x41#8] false) := by
  decide
/-- V-P8. -/
theorem test_frameTypeOffset :
    retOf (exec (.frameTypeOffset [0x7E#8, 0x7D#8, 0x31#8, 0x7D#8, 0x33#8, 0x8A#8] true) State.reset) = some (.nat 5) ∧
    retOf (exec (.frameTypeOffset [0x7E#8, 0x7D#8, 0x31#8, 0x7D#8, 0x33#8, 0x8A#8] false) State.reset) = some (.nat 3) ∧
    retOf (exec (.frameTypeOffset [0x7E#8, 0x00#8, 0x7D#8, 0x33#8, 0x97#8] true) State.reset) = some (.nat 4) ∧
    retOf (exec (.frameTypeOffset [0x7E#8, 0x7D#8, 0x31#8, 0x02#8, 0x8A#8] true) State.reset) = some (.nat 4) := by decide
/-- U5: fewer than 3 bytes, or than 4 or 5 when length bytes are escaped. -/
theorem test_raw_refused :
    refusalOf (exec (.logicalSum [0x7E#8, 0x00#8] false) State.reset) = some .rawTooShort ∧
    refusalOf (exec (.frameTypeOffset [0x7E#8, 0x00#8, 0x7D#8] true) State.reset) = some .rawTooShort ∧
    refusalOf (exec (.checksum [0x7E#8, 0x7D#8, 0x31#8, 0x7D#8] true) State.reset) = some .rawTooShort ∧
    retOf (exec (.frameTypeOffset [0x7E#8, 0x00#8, 0x02#8] true) State.reset) = some (.nat 3) := by decide
/-- V-P9, V-P10, V-P12. -/
theorem test_checksums :
    retOf (exec (.logicalSum [0x7E#8, 0x00#8, 0x02#8, 0x8A#8, 0x7D#8, 0x33#8] true) State.reset) = some (.byte 0x9D#8) ∧
    retOf (exec (.logicalSum [0x7E#8, 0x00#8, 0x02#8, 0x8A#8, 0x7D#8, 0x33#8] false) State.reset) = some (.byte 0x3A#8) ∧
    retOf (exec (.checksum [0x7E#8, 0x00#8, 0x02#8, 0x8A#8, 0x7D#8, 0x33#8] true) State.reset) = some (.byte 0x62#8) ∧
    retOf (exec (.checksum [0x7E#8, 0x00#8, 0x02#8, 0x8A#8, 0x7D#8, 0x33#8] false) State.reset) = some (.byte 0xC5#8) ∧
    retOf (exec (.checksumValid [0x7E#8, 0x00#8, 0x02#8, 0x8A#8, 0x64#8, 0x7D#8, 0x31#8] true) State.reset) =
      some (.bool true) ∧
    retOf (exec (.checksumValid [0x7E#8, 0x00#8, 0x02#8, 0x8A#8, 0x7D#8, 0x33#8, 0x62#8] false) State.reset) =
      some (.bool false) := by decide

/-! ### Parsers -/

/-- V-M2, V-M3. -/
theorem test_modemStatus :
    retOf (exec (.modemStatus (frameOf [0x8A#8] 0x75#8)) State.reset) = some (.result (.noMatch .short)) ∧
    retOf (exec (.modemStatus (frameOf [0x8A#8, 0x06#8, 0xEE#8] 0x81#8)) State.reset) =
      some (.result (.modemStatus 0x06#8)) := by decide
/-- V-M38. -/
theorem test_modemStatus_tag :
    retOf (exec (.modemStatus (frameOf [0x8B#8, 0x00#8] 0x74#8)) State.reset) = some (.result (.noMatch .tag)) := by decide
/-- V-M4. -/
theorem test_extTxStatus :
    retOf (exec (.extTxStatus (frameOf [0x8B#8, 0x52#8, 0x12#8, 0x34#8, 0x02#8, 0x00#8, 0x01#8] 0xD9#8)) State.reset) =
      some (.result (.extTxStatus ⟨0x52#8, 0x1234#16, 2#8, 0#8, 1#8⟩)) := by decide
/-- V-M7. -/
theorem test_rxPacket :
    retOf (exec (.rxPacket (frameOf ([0x90#8] ++ addr.toBytes ++ [0x7D#8, 0x84#8, 0x01#8, 0x52#8, 0x78#8, 0x44#8, 0x61#8,
      0x74#8, 0x61#8]) 0x0D#8)) State.reset) =
      some (.result (.rxPacket ⟨addr, 0x7D84#16, 0x01#8⟩ [0x52#8, 0x78#8, 0x44#8, 0x61#8, 0x74#8, 0x61#8])) := by decide
/-- V-M10 with `RX_TAIL_TRIM = 2`. -/
theorem test_rxPacket_trim :
    retOf (exec (.rxPacket (frameOf ([0x90#8] ++ List.replicate 11 0x00#8 ++ [0x5A#8]) 0x15#8))
      (tune State.reset fun c => { c with rxTailTrim := 2 })) =
      some (.result (.rxPacket ⟨Address.coordinator, 0#16, 0#8⟩ [])) := by decide
/-- S9. -/
theorem test_rxIo :
    retOf (exec (.rxIo (frameOf ([0x92#8] ++ addr.toBytes ++ [0x7D#8, 0x84#8, 0x01#8, 0x01#8, 0x00#8, 0x38#8, 0x06#8, 0x00#8,
      0x28#8, 0x02#8, 0x25#8, 0x00#8, 0xF8#8]) 0xC9#8)) State.reset) =
      some (.result (.rxIo ⟨⟨addr, 0x7D84#16, 0x01#8⟩, 1#8, 0x0038#16, 0x06#8, [(3, true), (4, false), (5, true)],
        [(1, 0x0225#16), (2, 0x00F8#16)]⟩)) := by decide
/-- V-M18. -/
theorem test_rxIo_tail :
    retOf (exec (.rxIo (frameOf ([0x92#8] ++ List.replicate 8 0xAA#8 ++ [0x12#8, 0x34#8, 0x41#8, 0x01#8, 0x00#8, 0x01#8,
      0x01#8, 0x00#8, 0x01#8, 0x02#8]) 0x90#8)) State.reset) = some (.result (.noMatch .shortTail)) := by decide
/-- V-M23, V-M24. -/
theorem test_nodeId :
    retOf (exec (.nodeId (frameOf ([0x95#8] ++ List.replicate 21 0x00#8 ++ List.replicate 21 0x41#8 ++ [0x00#8, 0x02#8])
      0x13#8)) State.reset) =
      some (.result (.nodeId ⟨⟨Address.coordinator, 0#16, 0#8⟩, 0#16, Address.coordinator, List.replicate 21 0x41#8, 0x02#8,
        .endDevice⟩)) ∧
    retOf (exec (.nodeId (frameOf ([0x95#8] ++ List.replicate 21 0x00#8 ++ List.replicate 22 0x41#8 ++ [0x00#8, 0x02#8])
      0xD2#8)) State.reset) = some (.result (.noMatch .malformed)) := by decide
/-- V-M29, V-M31. -/
theorem test_nodeId_short :
    retOf (exec (.nodeId (frameOf ([0x95#8] ++ List.replicate 21 0x00#8 ++ [0x41#8, 0x00#8]) 0x29#8)) State.reset) =
      some (.result (.noMatch .shortTail)) ∧
    retOf (exec (.nodeId (frameOf ([0x95#8] ++ List.replicate 20 0x00#8) 0x6A#8)) State.reset) =
      some (.result (.noMatch .short)) := by decide
/-- V-M33. -/
theorem test_ratResponse :
    retOf (exec (.ratResponse (frameOf ([0x97#8, 0x01#8] ++ addr.toBytes ++ [0xFF#8, 0xFE#8, 0x44#8, 0x30#8, 0x04#8]) 0xD6#8))
      State.reset) = some (.result (.ratResponse ⟨0x01#8, addr, 0xFFFE#16, 0x44#8, 0x30#8, 0x04#8⟩)) := by decide
/-- V-M35, V-M36, V-M37. -/
theorem test_other_tags :
    retOf (exec (.routeRecordSkip (frameOf [0xA1#8] 0x5E#8)) State.reset) = some (.result .skip) ∧
    retOf (exec (.txRequestInbound (frameOf [0x10#8, 0x01#8] 0xEE#8)) State.reset) =
      some (.result (.unrecognised 0x10#8)) ∧
    retOf (exec (.ratRequestInbound (frameOf [0x17#8, 0x01#8] 0xE7#8)) State.reset) =
      some (.result (.unrecognised 0x17#8)) ∧
    retOf (exec (.otherTag (frameOf [0x42#8] 0xBD#8)) State.reset) = some (.result (.unrecognised 0x42#8)) := by decide
theorem test_parseMux :
    retOf (exec (.parseMux (frameOf [0x8A#8, 0x00#8] 0x75#8)) State.reset) = some (.result (.modemStatus 0x00#8)) ∧
    retOf (exec (.parseMux (frameOf [] 0xFF#8)) State.reset) = some (.result (.noMatch .empty)) := by decide
/-- V-M14, V-M17: bit 15 is not reported. -/
theorem test_digitalSamples :
    retOf (exec (.digitalSamples 0x8000#16 0x8000#16) State.reset) = some (.digital []) ∧
    retOf (exec (.digitalSamples 0x0038#16 0x0028#16) State.reset) =
      some (.digital [(3, true), (4, false), (5, true)]) := by decide
/-- V-M16, V-M15. -/
theorem test_analogSamples :
    retOf (exec (.analogSamples 0x8F#8 [0x00#8, 0x01#8, 0x00#8, 0x02#8, 0x00#8, 0x03#8, 0x00#8, 0x04#8, 0x0A#8, 0xBC#8])
      State.reset) = some (.analog [(0, 1#16), (1, 2#16), (2, 3#16), (3, 4#16), (7, 0x0ABC#16)]) ∧
    retOf (exec (.analogSamples 0x70#8 []) State.reset) = some (.analog []) := by decide
theorem test_deviceTypeClass :
    retOf (exec (.deviceTypeClass 0x03#8) State.reset) = some (.deviceClass .undefined) ∧
    retOf (exec (.deviceTypeClass 0x02#8) State.reset) = some (.deviceClass .endDevice) := by decide

/-! ### Companions -/

/-- V-A4. -/
theorem test_addressFromBytes :
    retOf (exec (.addressFromBytes [0x00#8, 0x13#8, 0xA2#8]) State.reset) = some (.raised .invalidAddress) ∧
    retOf (exec (.addressFromBytes addr.toBytes) State.reset) = some (.address addr) := by decide
/-- V-A1. -/
theorem test_addressFromString :
    retOf (exec (.addressFromString "0x0013a20040522baa".toList) State.reset) = some (.address addr) ∧
    retOf (exec (.addressFromString "0x0013A20040522BAA".toList) State.reset) = some (.address addr) := by decide
/-- V-A3. -/
theorem test_addressFromString_invalid :
    (["0013A20040522BAA", "0X0013A20040522BAA", "0x0013A20040522BAG", "0x0013A20040522BA"].map fun t =>
      retOf (exec (.addressFromString t.toList) State.reset)) = List.replicate 4 (some (.raised .invalidAddress)) := by decide
/-- V-A2. -/
theorem test_addressToString :
    retOf (exec (.addressToString addr) State.reset) = some (.text "0x0013A20040522BAA".toList) ∧
    retOf (exec (.addressToString Address.broadcast) State.reset) = some (.text "0xFFFFFFFFFFFFFFFF".toList) := by decide
/-- V-E1, V-E2. -/
theorem test_encodeFrame :
    retOf (exec (.encodeFrame [0x8A#8, 0x13#8] true) State.reset) =
      some (.bytes [0x7E#8, 0x00#8, 0x02#8, 0x8A#8, 0x7D#8, 0x33#8, 0x62#8]) ∧
    retOf (exec (.encodeFrame [0x8A#8, 0xF7#8] true) State.reset) =
      some (.bytes [0x7E#8, 0x00#8, 0x02#8, 0x8A#8, 0xF7#8, 0x7D#8, 0x5E#8]) := by decide
theorem test_encodeFrame_refused :
    refusalOf (exec (.encodeFrame [] true) State.reset) = some .payloadLength := by decide
/-- V-E4, V-E6. -/
theorem test_buildTransmit :
    retOf (exec (.buildTransmit Address.coordinator 0x01#8 [0xE0#8] true) State.reset) =
      some (.bytes ([0x7E#8, 0x00#8, 0x0F#8, 0x10#8, 0x01#8] ++ List.replicate 8 0x00#8 ++
        [0xFF#8, 0xFE#8, 0x00#8, 0x00#8, 0xE0#8, 0x7D#8, 0x31#8])) ∧
    retOf (exec (.buildTransmit Address.coordinator 0x01#8 [0x01#8, 0x02#8, 0x03#8] true) State.reset) =
      some (.bytes ([0x7E#8, 0x00#8, 0x7D#8, 0x31#8, 0x10#8, 0x01#8] ++ List.replicate 8 0x00#8 ++
        [0xFF#8, 0xFE#8, 0x00#8, 0x00#8, 0x01#8, 0x02#8, 0x03#8, 0xEB#8])) := by decide
/-- V-E7. -/
theorem test_buildRemoteATCommand :
    retOf (exec (.buildRemoteATCommand addr 0x01#8 0x44#8 0x30#8 [0x05#8] true)
      (tune State.reset fun c => { c with ratOptions := 0x02#8 })) =
      some (.bytes [0x7E#8, 0x00#8, 0x10#8, 0x17#8, 0x01#8, 0x00#8, 0x7D#8, 0x33#8, 0xA2#8, 0x00#8, 0x40#8, 0x52#8, 0x2B#8,
        0xAA#8, 0xFF#8, 0xFE#8, 0x02#8, 0x44#8, 0x30#8, 0x05#8, 0x53#8]) := by decide

/-! ### The conditions (R170) -/

theorem test_conditions :
    [Condition.invalidState, .zeroLength, .accOverflow, .checksumMismatch, .noMatch, .unrecognised, .skipped,
      .undefinedDeviceType, .encoderSelfCheck, .invalidAddress, .endOfFrames].map conditionCode = List.range' 1 11 ∧
    eventCondition (.checksumFail 2#16 0x8A#8) = some .checksumMismatch ∧
    eventCondition (.fault .zeroLen) = some .zeroLength ∧ conditionClass .zeroLength = .fault := by decide

/-! ### Witnesses: for each statement with hypotheses, values that meet them together, one for each clause -/

/-- A frame in progress, its checksum byte still to come. -/
def pending : State := dec false [0x7E#8, 0x00#8, 0x02#8, 0x8A#8, 0x00#8] false 2#16
/-- A completed accumulation. -/
def completed : State := dec false [0x7E#8, 0x00#8, 0x02#8, 0x8A#8, 0x00#8, 0x75#8] false 2#16
/-- A start delimiter received in escaped mode. -/
def begun : State := dec true [0x7E#8] false 0#16
/-- An accumulator at capacity. -/
def full (m e : Bool) : State := tune (dec m [0x7E#8] e 0#16) fun c => { c with accCap := 1 }

theorem witness_DecodeOfEncodeIsIdentity :
    (Instr.esc.wf = true ∧ Instr.esc.fits true false = true ∧ encode .esc = some (.byte 0x7D#8)) ∧
    ((Instr.modemStatus (frameOf [0x8A#8] 0x75#8)).wf = true ∧
      (Instr.modemStatus (frameOf [0x8A#8] 0x75#8)).fits false false = true ∧
      encode (.modemStatus (frameOf [0x8A#8] 0x75#8)) = some (.frame (frameOf [0x8A#8] 0x75#8))) := by decide
theorem witness_EncodeOfDecodeIsIdentity : decode true false (.pair 0x7D#8 0x33#8) = .ok .escSeq13 := rfl
theorem witness_ByteClassesFollowTheTable :
    ((0x7D#8 : Byte) = 0x7D#8 ∧ true = true ∧ false = false) ∧ ((0x7D#8 : Byte) ≠ 0x7E#8 ∧ true = true) ∧
    ((0x7D#8 : Byte) ≠ 0x7E#8 ∧ false = false ∧ ¬((0x7D#8 : Byte) = 0x7D#8 ∧ false = true)) := by decide
theorem witness_DirectivesReadBack :
    directiveOf (.feed 0xAB#8) = some "feed AB".toList ∧ directiveOf (.hardReset true) = some "hardreset mode=1".toList := by
  decide
theorem witness_StepExecutesTheNextInput :
    { pending with input := [.abort] }.input = .abort :: [] ∧ State.reset.input = [] := by decide
theorem witness_ByteStepExecutesTheDecodedClass :
    (∃ t, (full false false).halted = false ∧ { full false false with input := [.byte 0x41#8] }.input = [.byte 0x41#8] ∧
      exec (decodeByte false false 0x41#8) (full false false) = .next t ∧ t.events ≠ []) ∧
    (∃ t, begun.halted = false ∧ { begun with input := [.byte 0x7E#8] }.input = [.byte 0x7E#8] ∧
      exec (decodeByte true false 0x7E#8) begun = .next t ∧ t.events = []) :=
  ⟨⟨_, rfl, rfl, rfl, by decide⟩, ⟨_, rfl, rfl, rfl, by decide⟩⟩
theorem witness_MultiplexerExecutesTheDecodedTag :
    decodeFrame (frameOf [0x17#8] 0xE8#8) = .ok (.ratRequestInbound (frameOf [0x17#8] 0xE8#8)) := rfl
theorem witness_StartDelimiterRestarts : (full true true).halted = false := by decide
theorem witness_EscapeMarkerIsConsumed :
    (full true false).mode = true ∧ (full true false).escPending = false ∧ accepts (full true false) :=
  ⟨rfl, rfl, .inl rfl⟩
theorem witness_EscapedByteIsStoredFlipped :
    ((dec true [] true 0#16).escPending = true ∧ (0x7D#8 : Byte) ≠ 0x7E#8 ∧ accepts (dec true [] true 0#16) ∧
      (dec true [] true 0#16).accLen ≠ (dec true [] true 0#16).cfg.accCap) ∧
    ((full true true).escPending = true ∧ accepts (full true true) ∧
      (full true true).accLen = (full true true).cfg.accCap ∧ (full true true).halted = false ∧
      { full true true with fault := 0b001#3 }.halted = true) :=
  ⟨⟨rfl, by decide, .inl rfl, by decide⟩, ⟨rfl, .inl rfl, rfl, rfl, rfl⟩⟩
theorem witness_DataByteIsStoredVerbatim :
    ((0x7D#8 : Byte) ≠ 0x7E#8 ∧ pending.escPending = false ∧ ((0x7D#8 : Byte) ≠ 0x7D#8 ∨ pending.mode = false) ∧
      accepts pending ∧ pending.accLen ≠ pending.cfg.accCap) ∧
    ((full false false).escPending = false ∧ accepts (full false false) ∧
      (full false false).accLen = (full false false).cfg.accCap ∧ (full false false).halted = false ∧
      { full false false with fault := 0b001#3 }.halted = true) :=
  ⟨⟨by decide, rfl, .inr rfl, .inl rfl, by decide⟩, ⟨rfl, .inl rfl, rfl, rfl, rfl⟩⟩
theorem witness_IdleByteIsDiscarded :
    (tune (dec true [] false 0#16) fun c => { c with idleDrop := true }).cfg.idleDrop = true ∧
    (tune (dec true [] false 0#16) fun c => { c with idleDrop := true }).acc = [] ∧ (0x7D#8 : Byte) ≠ 0x7E#8 ∧
    (tune (dec true [] false 0#16) fun c => { c with idleDrop := true }).halted = false := by decide
theorem witness_EscapeSequencesStoreTheLogicalByte :
    begun.mode = true ∧ begun.escPending = false ∧ accepts begun ∧ begun.accLen ≠ begun.cfg.accCap :=
  ⟨rfl, rfl, .inl rfl, by decide⟩
theorem witness_AppendStoresOnlyAtAccLen :
    ∃ t, (0x41#8 : Byte) ≠ 0x7E#8 ∧ Instr.data 0x41#8 ∈ [Instr.append 0x41#8, .data 0x41#8, .escaped 0x41#8, .esc] ∧
      exec (.data 0x41#8) begun = .next t ∧ t.accLen = begun.accLen + 1 := ⟨_, by decide, by decide, rfl, by decide⟩
theorem witness_FrameCompleteMeasures :
    begun.accLen < 3 ∧
    (pending.acc = 0x7E#8 :: 0x00#8 :: 0x02#8 :: [0x8A#8, 0x00#8] ∧ (2#16 : Half) ≠ 0#16 ∧ (2#16 : Half) = pending.nCached) ∧
    (∃ t, exec .frameComplete completed = .next t ∧ t.events = []) := ⟨by decide, by decide, _, rfl, rfl⟩
theorem witness_ZeroLengthFollowsThePolicy :
    ((dec false [0x7E#8, 0x00#8, 0x00#8] false 0#16).cfg.zeroLenPolicy = .fault ∧
      (dec false [0x7E#8, 0x00#8, 0x00#8] false 0#16).nCached = 0#16) ∧
    ((tune (dec false [0x7E#8, 0x00#8, 0x00#8] false 0#16) fun c => { c with zeroLenPolicy := .literal }).cfg.zeroLenPolicy =
        .literal ∧
      (dec false [0x7E#8, 0x00#8, 0x00#8] false 0#16).halted = false ∧
      { dec false [0x7E#8, 0x00#8, 0x00#8] false 0#16 with fault := 0b010#3 }.halted = true ∧ (0xFF#8 : Byte) ≠ 0x7E#8 ∧ (0xFF#8 : Byte) ≠ 0x7D#8 ∧
      (dec false [0x7E#8, 0x00#8, 0x00#8] false 0#16).cfg.accCap ≠ 3 ∧
      (dec false [0x7E#8, 0x00#8, 0x00#8] false 0#16).cfg.accCheckRedecode = false) := by decide
theorem witness_CacheIsUnobservable :
    completed.CacheAgrees ∧ completed.cfg.sofClearsN = true ∧
    completed.acc = 0x7E#8 :: 0x00#8 :: 0x02#8 :: [0x8A#8, 0x00#8, 0x75#8] ∧ 0 * 256 + 2 ≠ 0 := by decide
theorem witness_ToFrameReadsTheAccumulator :
    completed.acc = 0x7E#8 :: 0x00#8 :: 0x02#8 :: ([0x8A#8, 0x00#8] ++ [0x75#8]) ∧
    [0x8A#8, 0x00#8].length = (0x00#8).toNat * 256 + (0x02#8).toNat ∧ completed.nCached.toNat = 2 := by decide
theorem witness_ToFrameBeforeCompletionFaults :
    (∃ t, exec .frameComplete pending = .next t ∧ t.events = [] ∧ t.ret = .bool false ∧ pending.halted = false) ∧
    (∃ t, exec .frameComplete { pending with fault := 0b010#3 } = .next t ∧ t.events = [] ∧ t.ret = .bool false ∧
      { pending with fault := 0b010#3 }.halted = true) := ⟨⟨_, rfl, rfl, by decide, rfl⟩, ⟨_, rfl, rfl, by decide, rfl⟩⟩
theorem witness_AccChecksumSumsFromIndexThree :
    (4 ≤ completed.accLen ∧ completed.cfg.accCheckRedecode = false) ∧
    (4 ≤ (tune completed fun c => { c with accCheckRedecode := true }).accLen ∧
      (tune completed fun c => { c with accCheckRedecode := true }).cfg.accCheckRedecode = true ∧
      rawReadable completed.acc completed.mode = true) ∧
    rawReadable (dec true [0x7E#8, 0x7D#8, 0x31#8, 0x7D#8] false 0#16).acc true = false ∧
    (dec false [0x7E#8, 0x00#8, 0x02#8] false 0#16).accLen < 4 := by decide

theorem witness_FeedComposesTheOperations_halted : { pending with fault := 0b010#3 }.halted = true := by decide
theorem witness_FeedComposesTheOperations_append :
    ∃ t, (full false false).halted = false ∧ exec (.append 0x41#8) (full false false) = .next t ∧ t.events ≠ [] :=
  ⟨_, rfl, rfl, by decide⟩
theorem witness_FeedComposesTheOperations_zero :
    ∃ t u, exec (.append 0x00#8) (dec false [0x7E#8, 0x00#8] false 0#16) = .next t ∧ t.events = [] ∧
      exec .frameComplete t = .next u ∧ u.events ≠ [] := ⟨_, _, rfl, rfl, rfl, by decide⟩
theorem witness_FeedComposesTheOperations_more :
    ∃ t u, exec (.append 0x02#8) (dec false [0x7E#8, 0x00#8] false 0#16) = .next t ∧ t.events = [] ∧
      exec .frameComplete t = .next u ∧ u.events = [] ∧ u.ret = .bool false := ⟨_, _, rfl, rfl, rfl, rfl, by decide⟩
theorem witness_FeedComposesTheOperations_done :
    (∃ t u v, exec (.append 0x75#8) pending = .next t ∧ t.events = [] ∧ exec .frameComplete t = .next u ∧ u.events = [] ∧
      u.ret = .bool true ∧ exec .accChecksumValid u = .next v ∧ v.ret = .bool true) ∧
    (∃ t u v, exec (.append 0x74#8) pending = .next t ∧ t.events = [] ∧ exec .frameComplete t = .next u ∧ u.events = [] ∧
      u.ret = .bool true ∧ exec .accChecksumValid u = .next v ∧ v.ret = .bool false) :=
  ⟨⟨_, _, _, rfl, rfl, rfl, rfl, by decide, rfl, by decide⟩, ⟨_, _, _, rfl, rfl, rfl, rfl, by decide, rfl, by decide⟩⟩
theorem witness_LastByteDeliversOrDrops :
    (pending.halted = false ∧ pending.acc = 0x7E#8 :: 0x00#8 :: 0x02#8 :: 0x8A#8 :: [0x00#8] ∧
      [0x00#8].length + 1 = (0x00#8).toNat * 256 + (0x02#8).toNat ∧ pending.nCached.toNat = 2 ∧
      pending.escPending = false ∧ pending.accLen ≠ pending.cfg.accCap ∧ pending.cfg.accCheckRedecode = false) ∧
    ((0x75#8 : Byte) ≠ 0x7E#8 ∧ (0x75#8 : Byte) ≠ 0x7D#8 ∧ (natSum [0x8A#8, 0x00#8] + (0x75#8).toNat) % 256 = 255) ∧
    ((0x7D#8 : Byte) ≠ 0x7E#8 ∧ pending.mode = false ∧ (natSum [0x8A#8, 0x00#8] + (0x7D#8).toNat) % 256 ≠ 255) := by decide
theorem witness_HaltedBlockIgnoresEvents :
    { pending with fault := 0b100#3 }.fault ≠ 0#3 ∧
    ∃ t, (∀ m, Instr.reset ≠ .hardReset m) ∧ exec .reset { pending with fault := 0b100#3 } = .next t :=
  ⟨by decide, _, by simp, rfl⟩
theorem witness_AbortAndEndOfStream : pending.fault = 0#3 := by decide
theorem witness_OnlyHardResetWritesModeOrClearsFaults :
    ∃ t, (∀ m, Instr.toFrame ≠ .hardReset m) ∧ exec .toFrame pending = .next t ∧ t.fault ≠ 0#3 :=
  ⟨_, by simp, rfl, by decide⟩
theorem witness_PureOperationsTouchNoState :
    (∃ t, isPure (.be16 0x12#8 0x34#8) = true ∧ State.reset.cfg = pending.cfg ∧ exec (.be16 0x12#8 0x34#8) pending = .next t) ∧
    (isPure (.encodeFrame [] true) = true ∧ exec (.encodeFrame [] true) pending = .refused .payloadLength) :=
  ⟨⟨_, rfl, rfl, rfl⟩, rfl, rfl⟩
theorem witness_StepEmitsAtMostTwoEvents : ∃ t, exec (.feed 0x75#8) pending = .next t ∧ t.events.length = 1 :=
  ⟨_, rfl, by decide⟩
/-- The invariants hold of a state that is neither the reset state nor idle. -/
theorem pending_inv : pending.Inv := ⟨by decide, by decide, by decide, by decide, by decide⟩
theorem witness_StepKeepsTheInvariants :
    ∃ t, pending.cfg.holdsDelimiter ∧ { pending with input := [.call .toFrame] }.Inv ∧
      step { pending with input := [.call .toFrame] } = .next t :=
  ⟨_, by decide, ⟨by decide, by decide, by decide, by decide, by decide⟩, rfl⟩
theorem witness_EventStepKeepsFrameInProgress :
    ∃ t, pending.cfg.sofClearsN = true ∧ pending.CacheAgrees ∧ pending.InProgress ∧
      { pending with input := [.byte 0x75#8] }.nextIsEvent = true ∧
      step { pending with input := [.byte 0x75#8] } = .next t :=
  ⟨_, by decide, by decide, by decide, by decide, rfl⟩
theorem witness_OverflowIsUnreachableThroughFeed :
    ∃ t, pending.cfg.sofClearsN = true ∧ 65539 ≤ pending.cfg.accCap ∧ pending.CacheAgrees ∧ pending.InProgress ∧
      pending.halted = false ∧ { pending with input := [.byte 0x75#8] }.nextIsEvent = true ∧
      step { pending with input := [.byte 0x75#8] } = .next t :=
  ⟨_, by decide, by decide, by decide, by decide, by decide, by decide, rfl⟩
theorem witness_EncodedFrameIsDelivered :
    (fresh true (dec true [] false 0#16) ∧ 1 ≤ [0x90#8, 0x7E#8].length ∧ [0x90#8, 0x7E#8].length ≤ 65535 ∧
      [0x90#8, 0x7E#8].length + 4 ≤ (dec true [] false 0#16).cfg.accCap ∧
      (dec true [] false 0#16).cfg.accCheckRedecode = false) ∧
    (fresh false State.reset ∧ 0x7E#8 ∉ (wireSpec [0x8A#8, 0x00#8] false).tail ∧
      { State.reset with input := (wireSpec [0x8A#8, 0x00#8] false).map .byte }.input =
        (wireSpec [0x8A#8, 0x00#8] false).map .byte ++ []) := by
  refine ⟨⟨⟨rfl, rfl, rfl, rfl, rfl⟩, by decide, by decide, by decide, by decide⟩, ⟨⟨rfl, rfl, rfl, rfl, rfl⟩, by decide, by decide⟩⟩
theorem witness_DeliveriesDoNotMatter : begun.input = [] ∧ [0x00#8] ≠ ([] : List Byte) := by decide

theorem witness_UnescapeDecodesOnTheFly :
    exec (.unescape [0x41#8, 0x7D#8] true) State.reset = returns State.reset (.bytesBool [0x41#8] true) ∧
    (0x41#8 : Byte) ≠ 0x7D#8 := ⟨rfl, by decide⟩
theorem witness_FrameTypeOffsetSkipsMarkers :
    (0x00#8 : Byte) ≠ 0x7D#8 ∧ (0x7C#8 : Byte) ≠ 0x7D#8 ∧ [0x7E#8, 0x7D#8].length < 3 := by decide
theorem witness_ChecksumFunctionsSumLogicalBytes :
    rawReadable [0x7E#8, 0x00#8, 0x02#8] true = true ∧ rawReadable [0x7E#8, 0x7D#8, 0x31#8] true = false := by decide
theorem witness_ParsersCheckTagAndLength :
    (Instr.nodeId (frameOf [0x95#8] 0x6A#8), (0x95#8 : Byte), 22) ∈ [(Instr.nodeId (frameOf [0x95#8] 0x6A#8), (0x95#8 : Byte), 22)] ∧
    ((frameOf [0x90#8] 0x6F#8).payload.head? = some 0x90#8 ∧ (0x90#8 : Byte) ≠ 0x95#8) ∧
    ((frameOf (0x95#8 :: List.replicate 20 0x00#8) 0x6A#8).payload.head? = some 0x95#8 ∧
      (frameOf (0x95#8 :: List.replicate 20 0x00#8) 0x6A#8).payload.length < 22) ∧
    (frameOf [] 0xFF#8).payload = [] := by decide
theorem witness_StatusPacketFields :
    (frameOf [0x8A#8, 0x06#8] 0x6F#8).payload = 0x8A#8 :: 0x06#8 :: [] ∧
    (frameOf [0x8B#8, 0x52#8, 0x12#8, 0x34#8, 0x02#8, 0x00#8, 0x01#8] 0xD9#8).payload =
      0x8B#8 :: 0x52#8 :: 0x12#8 :: 0x34#8 :: 0x02#8 :: 0x00#8 :: 0x01#8 :: [] ∧
    (0x1234#16).toNat = (0x12#8).toNat * 256 + (0x34#8).toNat := by decide
theorem witness_RxPacketFields :
    (frameOf (0x90#8 :: (addr.toBytes ++ 0x7D#8 :: 0x84#8 :: 0x01#8 :: [0x52#8])) 0x00#8).payload =
      0x90#8 :: (addr.toBytes ++ 0x7D#8 :: 0x84#8 :: 0x01#8 :: [0x52#8]) ∧
    (0x7D84#16).toNat = (0x7D#8).toNat * 256 + (0x84#8).toNat := by decide
/-- The payload of every clause of `RxIoFields` is free but for its first 16 bytes; the clauses differ in the digital mask and in
the tail, at the boundary of the room the samples need. -/
theorem witness_RxIoFields :
    (∀ tail : List Byte, (frameOf (0x92#8 :: (addr.toBytes ++ 0x7D#8 :: 0x84#8 :: 0x01#8 :: 0x01#8 :: 0x00#8 :: 0x38#8 ::
      0x06#8 :: tail)) 0x00#8).payload = 0x92#8 :: (addr.toBytes ++ 0x7D#8 :: 0x84#8 :: 0x01#8 :: 0x01#8 :: 0x00#8 :: 0x38#8 ::
      0x06#8 :: tail)) ∧
    ((0x0000#16).toNat = (0x00#8).toNat * 256 + (0x00#8).toNat ∧ (0x0038#16).toNat = (0x00#8).toNat * 256 + (0x38#8).toNat ∧
      (0x0038#16 : Half) ≠ 0#16) ∧
    (channels 0x06#8).length = 2 ∧ 2 * (channels 0x06#8).length ≤ [0x02#8, 0x25#8, 0x00#8, 0xF8#8].length ∧
    [0x02#8, 0x25#8, 0x00#8].length < 2 * (channels 0x06#8).length ∧ [0x00#8].length < 2 :=
  ⟨fun _ => rfl, by decide, by decide, by decide, by decide, by decide⟩
theorem witness_AnalogSamplesConsumeTwoBytesEach :
    [0x02#8].length < 2 * (channels 0x81#8).length ∧
    2 * (channels 0x81#8).length ≤ [0x00#8, 0x01#8, 0x0A#8, 0xBC#8].length ∧
    [(0, 0x0001#16), (7, 0x0ABC#16)][1]? = some (7, (0x0ABC#16 : Half)) ∧
    [0x00#8, 0x01#8, 0x0A#8, 0xBC#8][2 * 1]? = some 0x0A#8 ∧ [0x00#8, 0x01#8, 0x0A#8, 0xBC#8][2 * 1 + 1]? = some 0xBC#8 := by
  decide
theorem witness_NodeIdFields :
    (∀ tail : List Byte, (frameOf (0x95#8 :: (addr.toBytes ++ 0x7D#8 :: 0x84#8 :: 0x02#8 :: 0x7D#8 :: 0x84#8 ::
      (addr.toBytes ++ tail))) 0x2D#8).payload = 0x95#8 :: (addr.toBytes ++ 0x7D#8 :: 0x84#8 :: 0x02#8 :: 0x7D#8 :: 0x84#8 ::
      (addr.toBytes ++ tail))) ∧
    (0x7D84#16).toNat = (0x7D#8).toNat * 256 + (0x84#8).toNat ∧
    (0x00#8 ∉ List.replicate 21 0x41#8 ∧ (List.replicate 21 0x41#8).length ≤ State.reset.cfg.niMax) ∧
    0x00#8 ∉ (List.replicate 22 0x41#8 ++ [0x00#8]).take (State.reset.cfg.niMax + 1) ∧
    ([0x41#8, 0x00#8] = [0x41#8] ++ [0x00#8] ∧ 0x00#8 ∉ [0x41#8] ∧ [0x41#8].length ≤ State.reset.cfg.niMax) :=
  ⟨fun _ => rfl, by decide, by decide, by decide, by decide⟩
theorem witness_RatResponseFields :
    (frameOf (0x97#8 :: 0x01#8 :: (addr.toBytes ++ 0xFF#8 :: 0xFE#8 :: 0x44#8 :: 0x30#8 :: 0x04#8 :: [])) 0xD6#8).payload =
      0x97#8 :: 0x01#8 :: (addr.toBytes ++ 0xFF#8 :: 0xFE#8 :: 0x44#8 :: 0x30#8 :: 0x04#8 :: []) ∧
    (0xFFFE#16).toNat = (0xFF#8).toNat * 256 + (0xFE#8).toNat := by decide
theorem witness_TagsWithoutParser :
    (frameOf [0x10#8] 0xEF#8).payload = 0x10#8 :: [] ∧
    (0x10#8 : Byte) ∉ [0x8A#8, 0x8B#8, 0x90#8, 0x92#8, 0x95#8, 0x97#8, 0xA1#8] ∧
    ((0x42#8 : Byte) ∉ [0x8A#8, 0x8B#8, 0x90#8, 0x92#8, 0x95#8, 0x97#8, 0xA1#8] ∧ (0x42#8 : Byte) ≠ 0x10#8 ∧
      (0x42#8 : Byte) ≠ 0x17#8) := by decide
theorem witness_ParserLoopsAreBounded :
    (∃ t p, exec (.parseMux (frameOf ([0x95#8] ++ List.replicate 21 0x00#8 ++ [0x41#8, 0x00#8, 0x01#8]) 0x00#8)) State.reset =
      .next t ∧ t.ret = .result (.nodeId p)) ∧
    (∃ t p, exec (.parseMux (frameOf (0x92#8 :: List.replicate 15 0x00#8) 0x6D#8)) State.reset = .next t ∧
      t.ret = .result (.rxIo p)) := ⟨⟨_, _, rfl, rfl⟩, ⟨_, _, rfl, rfl⟩⟩
theorem witness_EncodeFrameEmitsTheWire :
    (1 ≤ [0x8A#8].length ∧ [0x8A#8].length ≤ 65535) ∧ ([] : List Byte).length = 0 ∧
    65535 < (List.replicate 65536 0x00#8).length := by
  refine ⟨by decide, rfl, ?_⟩
  rw [List.length_replicate]; decide
theorem witness_EncodedFrameIsConsistent :
    ∃ t, exec (.encodeFrame [0x8A#8] true) State.reset = .next t ∧
      t.ret = .bytes [0x7E#8, 0x00#8, 0x01#8, 0x8A#8, 0x75#8] := ⟨_, rfl, by decide⟩
theorem witness_BuildersEncodeTheirPayload :
    14 + [0xE0#8].length ≤ 65535 ∧ 65535 < 14 + (List.replicate 65522 0x00#8).length ∧
    65535 < 15 + (List.replicate 65521 0x00#8).length := by
  refine ⟨by decide, ?_, ?_⟩ <;> rw [List.length_replicate] <;> decide
theorem witness_AddressTextReadsBack : addr.toBytes[7]? = some 0xAA#8 := by decide
theorem witness_AddressFromBytesNeedsEight : addr.toBytes.length = 8 ∧ [0x00#8].length ≠ 8 := by decide
theorem witness_AddressFromStringReadsHex :
    "0x0013a20040522bAA".toList = '0' :: 'x' :: "0013a20040522bAA".toList ∧ "0013a20040522bAA".toList.length = 16 ∧
    ("0013a20040522bAA".toList.all fun c => hexTable.any fun e => e.1 == c) = true ∧
    "0013a20040522bAA".toList[2 * 2]? = some 'a' ∧ "0013a20040522bAA".toList[2 * 2 + 1]? = some '2' ∧
    ('a', 10) ∈ hexTable ∧ ('2', 2) ∈ hexTable := by decide

theorem witness_AddressFromStringReadsHex_other :
    ¬∃ digits : Text, "0X0013A20040522BAA".toList = '0' :: 'x' :: digits ∧ digits.length = 16 ∧
      ∀ c ∈ digits, ∃ v, (c, v) ∈ hexTable := by
  rintro ⟨d, h, -⟩
  simp at h

end Sys2Proof.Tests
end

section
/-!
How the machine takes a step (R39): one equation per case of the pending input.
-/
open Sys2Proof.Statements

namespace Sys2Proof.Machine

/-- R39: the event at the head of the input is taken, and its instruction runs on the state without it. -/
theorem step_of_input_cons {s : State} {ev : Input} {rest : List Input} (h : s.input = ev :: rest) :
    step s = exec ev.instr { s with input := rest } := by
  simp only [step, h]

/-- R181: with no event pending the block waits, and only the last step's outputs are gone
(notes/assumptions/20.md). -/
theorem step_of_input_nil {s : State} (h : s.input = []) : step s = returns s .none := by
  simp only [step, h, State.emit, returns]

/-- Settles O6: the two clauses are the two cases of the pending input. -/
theorem stepExecutesTheNextInput : Obligations.StepExecutesTheNextInput :=
  ⟨fun _ _ _ => step_of_input_cons, fun _ => step_of_input_nil⟩

end Sys2Proof.Machine
end

section
/-!
What an instruction can do to the block, said once: a pure operation only leaves its outputs, and every other instruction but
`HardReset` is a sequence of the elementary changes of `Move`. A whole-machine rule then needs an argument per elementary
change and not one per instruction.
-/
open Sys2Proof.Statements

namespace Sys2Proof.Machine

/-! ### Pure operations (R88, R150) -/

theorem answer_emits {s t : State} {v : Value} (h : s.answer v = .next t) : ∃ w, t = s.emit [] w :=
  ⟨v, (answer_next.1 h).symm⟩

theorem rawAnswer_emits {α : Type} {a : Option α} {value : α → Value} {s t : State}
    (h : rawAnswer a value s = .next t) : ∃ w, t = s.emit [] w := by
  cases a with
  | none => simp [rawAnswer] at h
  | some a => exact answer_emits h

theorem encodeAnswer_emits {p : List Byte} {m : Bool} {s t : State} (h : encodeAnswer p m s = .next t) :
    ∃ w, t = s.emit [] w := by
  unfold encodeAnswer at h
  split_ifs at h
  · exact answer_emits h
  · exact answer_emits h

/-- A pure operation that is not refused leaves the value it returns and changes nothing else. -/
theorem exec_pure_emits {i : Instr} {s t : State} (hp : isPure i = true) (h : exec i s = .next t) :
    ∃ w, t = s.emit [] w := by
  cases i with
  | frameTypeOffset | logicalSum | checksum | checksumValid => exact rawAnswer_emits h
  | encodeFrame | buildTransmit | buildRemoteATCommand => exact encodeAnswer_emits h
  | modemStatus | extTxStatus | rxPacket | rxIo | nodeId | ratResponse | routeRecordSkip | txRequestInbound
  | ratRequestInbound | otherTag | parseMux | digitalSamples | analogSamples | deviceTypeClass => exact answer_emits h
  | be16 | shouldEscape | escapeAppend | unescape => exact answer_emits h
  | addressFromBytes | addressFromString | addressToString => exact answer_emits h
  | sof | esc | escaped | data | escSeq7E | escSeq7D | escSeq11 | escSeq13 => cases hp
  | accChecksumValid | append | frameComplete | toFrame | reset | feed | abort | endOfStream | hardReset => cases hp

/-! ### Elementary changes -/

/-- The elementary changes of the block other than `HardReset`: one completed `Append` or `FrameComplete`, one fault bit set,
`Reset`, and the model's own fields. -/
inductive Move : State → State → Prop
  | outputs (s : State) (i : List Input) (e : List Event) (v : Value) (n : Nat) :
      Move s { s with input := i, events := e, ret := v, freeCount := n }
  | append {s t : State} {b : Byte} {sof : Bool} (h : append b s = .done t sof) : Move s t
  | measure {s t : State} {r : Bool} (h : frameComplete s = .done t r) : Move s t
  | raise (s : State) (c : FaultCode) : Move s { s with fault := s.fault ||| faultBit c }
  | reset (s : State) : Move s (resetDecoder s)

/-- A sequence of elementary changes. -/
abbrev Moves : State → State → Prop := Relation.ReflTransGen Move

theorem Moves.emit {s t : State} (h : Moves s t) (evs : List Event) (v : Value) : Moves s (t.emit evs v) :=
  h.tail (.outputs t t.input evs v t.freeCount)

theorem Moves.resetDecoder {s t : State} (h : Moves s t) : Moves s (resetDecoder t) := h.tail (.reset t)

/-- What a fault's cause leaves is one bit set, or on a halted block nothing (R184, R185). -/
theorem Stopped.moves {c : FaultCode} {s t : State} {r : Option FaultCode} (h : Stopped c s t r) : Moves s t := by
  obtain ⟨_, _, rfl⟩ | ⟨_, _, rfl⟩ := h
  · exact .single (.raise s c)
  · exact .refl

/-- The state in which a decoder operation completes or is ended. -/
def Effect.state {α : Type} : Effect α → State
  | .done s _ => s
  | .ended s _ => s

theorem finish_moves {α : Type} {e : Effect α} {v : α → Value} {s t : State} (he : Moves s e.state)
    (h : e.finish v = .next t) : Moves s t := by
  obtain ⟨u, a, rfl, rfl⟩ | ⟨u, c, rfl, rfl⟩ := finish_next h
  · exact he.emit _ _
  · exact he.emit _ _

/-! ### The decoder operations as sequences of elementary changes -/

theorem append_moves (b : Byte) (s : State) : Moves s (append b s).state := by
  cases h : append b s with
  | done t sof => exact .single (.append h)
  | ended t c =>
    obtain ⟨_, _, _, hs⟩ := append_ended h
    exact hs.moves

theorem appendPair_moves (a b : Byte) (s : State) : Moves s (appendPair a b s).state := by
  have ha := append_moves a s
  unfold appendPair
  cases h : append a s with
  | done t sof => rw [h] at ha; exact ha.trans (append_moves b t)
  | ended t c => rw [h] at ha; exact ha

theorem frameComplete_moves (s : State) : Moves s (frameComplete s).state := by
  cases h : frameComplete s with
  | done t r => exact .single (.measure h)
  | ended t c =>
    obtain ⟨_, _, _, hs⟩ := frameComplete_ended h
    exact hs.moves

theorem toFrame_moves (s : State) : Moves s (toFrame s).state := by
  have hm := frameComplete_moves s
  cases h : toFrame s with
  | done t f => rw [(toFrame_done h).1] at hm; exact hm
  | ended t c =>
    obtain hf | ⟨u, hf, hs⟩ := toFrame_ended h
    · rw [hf] at hm; exact hm
    · rw [hf] at hm; exact hm.trans hs.moves

theorem afterAppend_moves (s : State) (evs : List Event) : Moves s (afterAppend s evs) := by
  have hm := frameComplete_moves s
  obtain ⟨t, hf, he⟩ | ⟨t, c, hf, he⟩ | ⟨t, hf, _, he⟩ | ⟨t, hf, _, he⟩ := afterAppend_cases s evs <;>
    rw [hf] at hm <;> rw [he]
  · exact hm.emit _ _
  · exact hm.emit _ _
  · exact hm.resetDecoder.emit _ _
  · exact hm.resetDecoder.emit _ _

theorem feedState_moves (b : Byte) (s : State) : Moves s (feedState b s) := by
  have hm := append_moves b s
  obtain ⟨_, he⟩ | ⟨_, t, c, ha, he⟩ | ⟨_, t, sof, ha, he⟩ := feedState_cases b s <;> rw [he]
  · exact Moves.emit .refl _ _
  · rw [ha] at hm; exact hm.emit _ _
  · rw [ha] at hm; exact hm.trans (afterAppend_moves t _)

theorem execFrameComplete_moves {s t : State} (h : execFrameComplete s = .next t) : Moves s t := by
  have hm := frameComplete_moves s
  unfold execFrameComplete at h
  cases hf : frameComplete s with
  | done u r =>
    rw [hf] at hm h
    obtain rfl := answer_next.1 h
    exact hm.emit _ _
  | ended u c =>
    rw [hf] at hm h
    cases h
    exact hm.emit _ _

theorem execAccChecksumValid_moves {s t : State} (h : execAccChecksumValid s = .next t) : Moves s t := by
  unfold execAccChecksumValid at h
  split at h
  · obtain rfl := answer_next.1 h
    exact Moves.emit .refl _ _
  · obtain rfl := answer_next.1 h
    exact .single (.outputs s _ _ _ _)

theorem execAbort_moves {s t : State} (h : execAbort s = .next t) : Moves s t := by
  unfold execAbort at h
  split_ifs at h <;> obtain rfl := answer_next.1 h
  · exact Moves.emit .refl _ _
  · exact (Moves.resetDecoder .refl).emit _ _

theorem execEndOfStream_moves {s t : State} (h : execEndOfStream s = .next t) : Moves s t := by
  unfold execEndOfStream at h
  split_ifs at h
  · obtain rfl := answer_next.1 h
    exact Moves.emit .refl _ _
  · cases h
    exact Moves.emit .refl _ _

/-- Every instruction but `HardReset` is a sequence of elementary changes. -/
theorem exec_moves {i : Instr} {s t : State} (hi : ∀ m, i ≠ .hardReset m) (h : exec i s = .next t) : Moves s t := by
  by_cases hp : isPure i = true
  · obtain ⟨w, rfl⟩ := exec_pure_emits hp h
    exact Moves.emit .refl _ _
  · cases i with
    | sof => exact finish_moves (append_moves sofByte s) h
    | esc => exact finish_moves (append_moves escByte s) h
    | escaped b | data b | append b => exact finish_moves (append_moves b s) h
    | escSeq7E => exact finish_moves (appendPair_moves escByte 0x5E#8 s) h
    | escSeq7D => exact finish_moves (appendPair_moves escByte 0x5D#8 s) h
    | escSeq11 => exact finish_moves (appendPair_moves escByte 0x31#8 s) h
    | escSeq13 => exact finish_moves (appendPair_moves escByte 0x33#8 s) h
    | accChecksumValid => exact execAccChecksumValid_moves h
    | frameComplete => exact execFrameComplete_moves h
    | toFrame => exact finish_moves (toFrame_moves s) h
    | reset =>
      obtain rfl := answer_next.1 h
      exact (Moves.resetDecoder .refl).emit _ _
    | feed b =>
      cases h
      exact feedState_moves b s
    | abort => exact execAbort_moves h
    | endOfStream => exact execEndOfStream_moves h
    | hardReset m => exact absurd rfl (hi m)
    | _ => exact absurd rfl hp

/-- `HardReset` as an instruction (R195). -/
theorem exec_hardReset (m : Bool) (s : State) : exec (.hardReset m) s = .next ((hardResetState m s).emit [] .none) := rfl

end Sys2Proof.Machine
end

section
/-!
The whole-machine rules of 10_state.md: `HardReset` creates the decoder and alone writes `mode` or clears a fault (R11, R16,
R195), and the invariants hold at reset and are kept by every step (R13, R14, R18, R23, R25).
-/
open Sys2Proof.Statements

namespace Sys2Proof.Machine

/-! ### HardReset and the fault bits -/

/-- Settles O28: the rule of `HardReset` and the four elements of the reset state. -/
theorem hardResetCreatesTheDecoder : Obligations.HardResetCreatesTheDecoder :=
  ⟨fun s m => exec_hardReset m s, rfl, rfl, rfl, rfl⟩

/-- `mode` is the same and every fault bit that was set is still set (R11, R16). -/
def KeepsModeAndFaults (s t : State) : Prop := t.mode = s.mode ∧ s.fault &&& t.fault = s.fault

theorem KeepsModeAndFaults.refl (s : State) : KeepsModeAndFaults s s := ⟨rfl, BitVec.and_self⟩

theorem KeepsModeAndFaults.trans {s t u : State} (h : KeepsModeAndFaults s t) (k : KeepsModeAndFaults t u) :
    KeepsModeAndFaults s u := by
  obtain ⟨hm, hf⟩ := h
  obtain ⟨km, kf⟩ := k
  refine ⟨km.trans hm, ?_⟩
  calc s.fault &&& u.fault
      = s.fault &&& (t.fault &&& u.fault) := by rw [← BitVec.and_assoc, hf]
    _ = s.fault := by rw [kf, hf]

theorem append_done_fault {b : Byte} {s t : State} {sof : Bool} (h : append b s = .done t sof) : t.fault = s.fault := by
  obtain ⟨_, _, rfl⟩ | ⟨_, _, _, rfl⟩ | ⟨_, _, _, _, _, rfl⟩ | ⟨_, _, _, _, _, rfl⟩ | ⟨_, _, _, _, _, _, rfl⟩ :=
    append_done h <;> rfl

theorem frameComplete_done_fault {s t : State} {r : Bool} (h : frameComplete s = .done t r) : t.fault = s.fault := by
  obtain ⟨_, _, rfl⟩ | ⟨_, rfl, _, _⟩ := frameComplete_done h <;> rfl

theorem append_done_halted {b : Byte} {s t : State} {sof : Bool} (h : append b s = .done t sof) : t.halted = s.halted :=
  congrArg (· != 0#3) (append_done_fault h)

theorem frameComplete_done_halted {s t : State} {r : Bool} (h : frameComplete s = .done t r) : t.halted = s.halted :=
  congrArg (· != 0#3) (frameComplete_done_fault h)

theorem and_or_self_left {w : Nat} (x y : BitVec w) : x &&& (x ||| y) = x := by
  ext k
  simp +contextual

theorem Move.keepsModeAndFaults {s t : State} (h : Move s t) : KeepsModeAndFaults s t := by
  cases h with
  | outputs => exact .refl s
  | append h => exact ⟨(append_done_sameFrame h).1, by rw [append_done_fault h, BitVec.and_self]⟩
  | measure h => exact ⟨(frameComplete_done_sameFrame h).1, by rw [frameComplete_done_fault h, BitVec.and_self]⟩
  | raise c => exact ⟨rfl, and_or_self_left _ _⟩
  | reset => exact .refl s

theorem Moves.keepsModeAndFaults {s t : State} (h : Moves s t) : KeepsModeAndFaults s t := by
  induction h with
  | refl => exact .refl s
  | tail _ hm ih => exact ih.trans hm.keepsModeAndFaults

/-- Settles O29: every other instruction is a sequence of elementary changes, and none of them writes `mode` or clears a bit. -/
theorem onlyHardResetWritesModeOrClearsFaults : Obligations.OnlyHardResetWritesModeOrClearsFaults :=
  fun _ _ _ hi h => (exec_moves hi h).keepsModeAndFaults

/-! ### The cached length (R23) -/

/-- An accumulation that grows keeps the length in it. -/
theorem cacheAgrees_of_store {s t : State} (h : s.CacheAgrees) {b : Byte} (hcfg : t.cfg = s.cfg)
    (hn : t.nCached = s.nCached) (ha : t.acc = s.acc ++ [b]) : t.CacheAgrees := by
  intro hs h0
  rw [hcfg] at hs
  rw [hn] at h0 ⊢
  obtain ⟨h3, hh⟩ := h hs h0
  simp only [State.accLen] at h3
  refine ⟨by simp [State.accLen, ha]; omega, ?_⟩
  rw [ha, halfAt_append_left (by omega), hh]

theorem append_done_cacheAgrees {b : Byte} {s t : State} {sof : Bool} (hc : s.CacheAgrees)
    (h : append b s = .done t sof) : t.CacheAgrees := by
  obtain ⟨_, _, rfl⟩ | ⟨_, _, _, rfl⟩ | ⟨_, _, _, _, _, rfl⟩ | ⟨_, _, _, _, _, rfl⟩ | ⟨_, _, _, _, _, _, rfl⟩ :=
    append_done h
  · intro hs h0
    exact absurd (if_pos hs) h0
  · exact hc
  · exact hc
  · exact cacheAgrees_of_store hc rfl rfl rfl
  · exact cacheAgrees_of_store hc rfl rfl rfl

/-- Where the cache agrees, what `FrameComplete` compares with is the length in the accumulator. -/
theorem measuredLength_eq_halfAt {s : State} (hc : s.CacheAgrees) (hs : s.cfg.sofClearsN = true) :
    measuredLength s = halfAt s.acc 1 := by
  unfold measuredLength
  split_ifs with h0
  · rfl
  · exact (hc hs h0).2

theorem frameComplete_done_cacheAgrees {s t : State} {r : Bool} (hc : s.CacheAgrees) (h : frameComplete s = .done t r) :
    t.CacheAgrees := by
  obtain ⟨_, _, rfl⟩ | ⟨h3, rfl, _, _⟩ := frameComplete_done h
  · exact hc
  · exact fun hs _ => ⟨h3, measuredLength_eq_halfAt hc hs⟩

/-- Settles O19: the length compared with and cached is the one in the accumulator, whether it was cached before or not. -/
theorem cacheIsUnobservable : Obligations.CacheIsUnobservable := by
  intro s d hi lo rest hc hs ha hn
  have hm : measuredLength s = be16 hi lo := by rw [measuredLength_eq_halfAt hc hs, ha]; rfl
  have hlen : (measuredLength s).toNat = hi.toNat * 256 + lo.toNat := by rw [hm, be16_toNat]
  have h0 : measuredLength s ≠ 0#16 := fun h => hn (by rw [← hlen, h]; rfl)
  have hf := frameComplete_measured (s := s) (by simp [State.accLen, ha]) h0
  refine ⟨State.emit { s with nCached := measuredLength s } [] (.bool (lengthComplete s.accLen (measuredLength s))),
    by simp only [exec, execFrameComplete, hf, State.answer], ?_, hlen⟩
  simp [lengthComplete, hlen, beq_eq_decide]

/-! ### The invariants -/

/-- Settles O32: the reset state holds nothing. -/
theorem resetMeetsTheInvariants : Obligations.ResetMeetsTheInvariants :=
  ⟨⟨by decide, by decide, by decide, by decide, by decide⟩, by decide⟩

/-- An empty accumulator with nothing pending meets the invariants. -/
theorem inv_of_empty {s : State} (ha : s.acc = []) (he : s.escPending = false) (hn : s.nCached = 0#16) : s.Inv where
  capacity := by simp [State.WithinCapacity, State.accLen, ha]
  escape := fun _ => he
  cache := fun _ h0 => absurd hn h0
  delimiter := fun _ => .inl ha
  idle := fun _ _ => he

/-- With IDLE_DROP, a byte that is not discarded finds an accumulation that has begun (R105). -/
theorem acc_ne_nil_of_dropsIdle {s : State} (hd : s.dropsIdle = false) (hi : s.cfg.idleDrop = true) : s.acc ≠ [] := by
  simpa [State.dropsIdle, hi] using hd

/-- A byte that is not discarded, stored below the capacity, keeps the invariants. -/
theorem inv_of_store {s : State} (h : s.Inv) (hd : s.dropsIdle = false) (hcap : s.accLen ≠ s.cfg.accCap) (b : Byte) :
    State.Inv { s with acc := s.acc ++ [b], escPending := false } where
  capacity := by
    have hle : s.accLen ≤ s.cfg.accCap := h.capacity
    have hlt : s.accLen + 1 ≤ s.cfg.accCap := by omega
    rwa [← storeByte_accLen b s] at hlt
  escape := fun _ => rfl
  cache := cacheAgrees_of_store h.cache rfl rfl rfl
  delimiter := by
    intro hi
    obtain h0 | hsof := h.delimiter hi
    · exact absurd h0 (acc_ne_nil_of_dropsIdle hd hi)
    · exact .inr (by simp [List.head?_append, hsof])
  idle := fun _ _ => rfl

theorem append_done_inv {b : Byte} {s t : State} {sof : Bool} (hcap : s.cfg.holdsDelimiter) (hI : s.Inv)
    (h : append b s = .done t sof) : t.Inv := by
  have hc := append_done_cacheAgrees hI.cache h
  obtain ⟨_, _, rfl⟩ | ⟨_, _, _, rfl⟩ | ⟨_, _, hd, hm, _, rfl⟩ | ⟨_, _, hd, _, hl, rfl⟩ | ⟨_, _, hd, he, _, hl, rfl⟩ :=
    append_done h
  · exact ⟨hcap, fun _ => rfl, hc, fun _ => .inr rfl, fun _ _ => rfl⟩
  · exact hI
  · exact ⟨hI.capacity, fun h0 => absurd (hm.symm.trans h0) (by decide), hc, hI.delimiter,
      fun hi ha => absurd ha (acc_ne_nil_of_dropsIdle hd hi)⟩
  · exact inv_of_store hI hd hl _
  · have := inv_of_store hI hd hl b
    rwa [← he] at this

theorem frameComplete_done_inv {s t : State} {r : Bool} (hI : s.Inv) (h : frameComplete s = .done t r) : t.Inv := by
  have hc := frameComplete_done_cacheAgrees hI.cache h
  obtain ⟨_, _, rfl⟩ | ⟨_, rfl, _, _⟩ := frameComplete_done h
  · exact hI
  · exact ⟨hI.capacity, hI.escape, hc, hI.delimiter, hI.idle⟩

/-- The invariants, with a capacity that holds a start delimiter, which R101 stores without a check. -/
def InvWithRoom (s : State) : Prop := s.cfg.holdsDelimiter ∧ s.Inv

theorem Move.keepsInv {s t : State} (h : Move s t) (hs : InvWithRoom s) : InvWithRoom t := by
  obtain ⟨hcap, hI⟩ := hs
  cases h with
  | outputs => exact ⟨hcap, hI.capacity, hI.escape, hI.cache, hI.delimiter, hI.idle⟩
  | append h =>
    obtain ⟨_, hcfg, _, _⟩ := append_done_sameFrame h
    exact ⟨hcfg ▸ hcap, append_done_inv hcap hI h⟩
  | measure h =>
    obtain ⟨_, hcfg, _, _⟩ := frameComplete_done_sameFrame h
    exact ⟨hcfg ▸ hcap, frameComplete_done_inv hI h⟩
  | raise c => exact ⟨hcap, hI.capacity, hI.escape, hI.cache, hI.delimiter, hI.idle⟩
  | reset => exact ⟨hcap, inv_of_empty rfl rfl rfl⟩

theorem Moves.keepsInv {s t : State} (h : Moves s t) (hs : InvWithRoom s) : InvWithRoom t := by
  induction h with
  | refl => exact hs
  | tail _ hm ih => exact hm.keepsInv ih

theorem exec_keepsInv {i : Instr} {s t : State} (hs : InvWithRoom s) (h : exec i s = .next t) : t.Inv := by
  by_cases hi : ∃ m, i = .hardReset m
  · obtain ⟨m, rfl⟩ := hi
    rw [exec_hardReset] at h
    cases h
    exact inv_of_empty rfl rfl rfl
  · exact ((exec_moves (fun m hm => hi ⟨m, hm⟩) h).keepsInv hs).2

/-- Settles O33: taking the input is an elementary change, and so is every change an instruction makes but `HardReset`, which
empties the block. -/
theorem stepKeepsTheInvariants : Obligations.StepKeepsTheInvariants := by
  intro s t hcap hI h
  cases hin : s.input with
  | nil =>
    rw [step_of_input_nil hin] at h
    cases h
    exact ((Move.outputs s s.input [] .none s.freeCount).keepsInv ⟨hcap, hI⟩).2
  | cons ev rest =>
    rw [step_of_input_cons hin] at h
    exact exec_keepsInv ((Move.outputs s rest s.events s.ret s.freeCount).keepsInv ⟨hcap, hI⟩) h

end Sys2Proof.Machine
end

section
/-!
The block advanced by input events alone (R24): between two steps it holds fewer bytes than a complete frame, so an accumulator
of 65539 bytes never overflows (R115, R177).
-/

namespace Sys2Proof.Machine

/-- What a step on an input event can do: `Feed`, a reset of the accumulator, or outputs alone, none of them a fault. -/
theorem eventStep_cases {s t : State} (he : s.nextIsEvent = true) (h : step s = .next t) :
    (∃ b i, t = feedState b { s with input := i }) ∨
    (t.acc = [] ∧ t.events = []) ∨
    (∃ i e, (∀ c, .fault c ∉ e) ∧ t = State.emit { s with input := i } e .none) := by
  cases hin : s.input with
  | nil =>
    rw [step_of_input_nil hin] at h
    cases h
    exact .inr (.inr ⟨s.input, [], by simp, rfl⟩)
  | cons ev rest =>
    rw [step_of_input_cons hin] at h
    cases ev with
    | byte b => cases h; exact .inl ⟨b, rest, rfl⟩
    | hardReset m => cases h; exact .inr (.inl ⟨rfl, rfl⟩)
    | abort =>
      simp only [Input.instr, exec, execAbort] at h
      split_ifs at h <;> cases h
      · exact .inr (.inr ⟨rest, [], by simp, rfl⟩)
      · exact .inr (.inl ⟨rfl, rfl⟩)
    | endOfStream =>
      simp only [Input.instr, exec, execEndOfStream] at h
      split_ifs at h <;> cases h
      · exact .inr (.inr ⟨rest, [], by simp, rfl⟩)
      · exact .inr (.inr ⟨rest, [.endOfFrames], by simp, rfl⟩)
    | call i => simp [State.nextIsEvent, hin] at he

/-- Wherever a fault's cause is met the block is halted afterwards (R184, R185). -/
theorem Stopped.halted {c : FaultCode} {s t : State} {r : Option FaultCode} (h : Stopped c s t r) : t.halted = true := by
  obtain ⟨hh, _, rfl⟩ | ⟨hh, _, rfl⟩ := h
  · have h0 : s.fault = 0#3 := by simpa [State.halted] using hh
    cases c <;> simp [State.halted, h0, faultBit]
  · exact hh

theorem inProgress_of_halted {s : State} (h : s.halted = true) : s.InProgress :=
  fun h0 => absurd (h.symm.trans h0) (by decide)

theorem inProgress_of_empty {s : State} (h : s.acc = []) : s.InProgress := by
  intro _ h3
  simp [State.accLen, h] at h3

/-- Below the completion length or just at it: between `Append` and the completion query of one step (R110). -/
abbrev State.AtMostComplete (s : State) : Prop := 3 ≤ s.accLen → s.accLen ≤ (halfAt s.acc 1).toNat + 4

/-- One more byte in a block in progress completes the frame at most. -/
theorem atMostComplete_of_store {s t : State} (hs : 3 ≤ s.accLen → s.accLen < (halfAt s.acc 1).toNat + 4) {b : Byte}
    (ha : t.acc = s.acc ++ [b]) : t.AtMostComplete := by
  intro _
  simp only [State.accLen] at hs
  simp only [State.accLen, ha, List.length_append, List.length_singleton]
  by_cases h3 : 3 ≤ s.acc.length
  · rw [halfAt_append_left (by omega)]
    have := hs h3
    omega
  · omega

theorem append_done_atMostComplete {b : Byte} {s t : State} {sof : Bool} (hh : s.halted = false) (hp : s.InProgress)
    (h : append b s = .done t sof) : t.AtMostComplete := by
  have hlt : 3 ≤ s.accLen → s.accLen < (halfAt s.acc 1).toNat + 4 := fun h3 => (hp hh h3).1
  obtain ⟨_, _, rfl⟩ | ⟨_, _, _, rfl⟩ | ⟨_, _, _, _, _, rfl⟩ | ⟨_, _, _, _, _, rfl⟩ | ⟨_, _, _, _, _, _, rfl⟩ :=
    append_done h
  · intro h3
    simp [State.accLen] at h3
  · exact fun h3 => (hlt h3).le
  · exact fun h3 => (hlt h3).le
  · exact atMostComplete_of_store hlt rfl
  · exact atMostComplete_of_store hlt rfl

/-- The completion query leaves a block in progress where it answers that more bytes are to come. -/
theorem frameComplete_false_inProgress {s t : State} (hs : s.cfg.sofClearsN = true) (hc : s.CacheAgrees)
    (hl : s.AtMostComplete) (h : frameComplete s = .done t false) : t.InProgress := by
  obtain ⟨h3, _, rfl⟩ | ⟨h3, rfl, hr, hz⟩ := frameComplete_done h
  · exact fun _ h3' => absurd h3' (by omega)
  · rw [measuredLength_eq_halfAt hc hs] at hr hz
    have hne : s.accLen ≠ (halfAt s.acc 1).toNat + 4 := by simpa [lengthComplete] using hr.symm
    have hle := hl h3
    refine fun _ _ => ⟨?_, fun hpol h0 => ?_⟩
    · exact lt_of_le_of_ne hle hne
    · exact absurd (hpol.symm.trans (hz h0)) (by decide)

theorem afterAppend_inProgress {s : State} (hs : s.cfg.sofClearsN = true) (hc : s.CacheAgrees) (hl : s.AtMostComplete)
    (evs : List Event) : (afterAppend s evs).InProgress := by
  obtain ⟨t, hf, he⟩ | ⟨t, c, hf, he⟩ | ⟨t, _, _, he⟩ | ⟨t, _, _, he⟩ := afterAppend_cases s evs <;> rw [he]
  · exact frameComplete_false_inProgress (t := t) hs hc hl hf
  · obtain ⟨_, _, _, hstop⟩ := frameComplete_ended hf
    exact inProgress_of_halted hstop.halted
  · exact inProgress_of_empty rfl
  · exact inProgress_of_empty rfl

theorem feedState_inProgress (b : Byte) {s : State} (hs : s.cfg.sofClearsN = true) (hc : s.CacheAgrees)
    (hp : s.InProgress) : (feedState b s).InProgress := by
  obtain ⟨_, he⟩ | ⟨_, t, c, ha, he⟩ | ⟨hh, t, sof, ha, he⟩ := feedState_cases b s <;> rw [he]
  · exact hp
  · obtain ⟨_, _, _, hstop⟩ := append_ended ha
    exact inProgress_of_halted hstop.halted
  · obtain ⟨_, hcfg, _, _⟩ := append_done_sameFrame ha
    exact afterAppend_inProgress (hcfg ▸ hs) (append_done_cacheAgrees hc ha) (append_done_atMostComplete hh hp ha) _

/-- Settles O34: `Append` completes the frame at most, and the completion query of the same step then empties the block. -/
theorem eventStepKeepsFrameInProgress : Obligations.EventStepKeepsFrameInProgress := by
  intro s t hs hc hp he h
  obtain ⟨b, i, rfl⟩ | ⟨ha, _⟩ | ⟨i, e, _, rfl⟩ := eventStep_cases he h
  · exact feedState_inProgress b hs hc hp
  · exact inProgress_of_empty ha
  · exact hp

/-! ### Overflow (R115, R177) -/

/-- A block in progress that is not halted holds at most 65538 bytes: the declared length is a 16-bit word. -/
theorem accLen_le_of_inProgress {s : State} (hp : s.InProgress) (hh : s.halted = false) : s.accLen ≤ 65538 := by
  have := (halfAt s.acc 1).isLt
  by_cases h3 : 3 ≤ s.accLen
  · have := (hp hh h3).1
    omega
  · omega

/-- The completion query and what follows it overflow nothing, and leave room in an accumulator of 65539 bytes. -/
theorem afterAppend_noOverflow {s : State} (hs : s.cfg.sofClearsN = true) (hc : s.CacheAgrees) (hl : s.AtMostComplete)
    (hh : s.halted = false) {evs : List Event} (hev : .fault .accOverflow ∉ evs) :
    .fault .accOverflow ∉ (afterAppend s evs).events ∧ (afterAppend s evs).accLen ≤ 65538 := by
  have hp := afterAppend_inProgress hs hc hl evs
  obtain ⟨t, hf, he⟩ | ⟨t, c, hf, he⟩ | ⟨t, _, _, he⟩ | ⟨t, _, _, he⟩ := afterAppend_cases s evs <;> rw [he] at hp ⊢
  · exact ⟨hev, accLen_le_of_inProgress hp ((frameComplete_done_halted hf).trans hh)⟩
  · obtain ⟨h3, h0, _, ⟨_, rfl, rfl⟩ | ⟨hh', _, _⟩⟩ := frameComplete_ended hf
    · have hle := hl h3
      rw [← measuredLength_eq_halfAt hc hs, h0] at hle
      refine ⟨by simpa [faultEvents] using hev, ?_⟩
      simp only [State.accLen, BitVec.toNat_ofNat] at hle ⊢
      exact hle.trans (by decide)
    · exact absurd (hh.symm.trans hh') (by decide)
  · simpa using hev
  · simpa using hev

theorem feedState_noOverflow (b : Byte) {s : State} (hs : s.cfg.sofClearsN = true) (hcap : 65539 ≤ s.cfg.accCap)
    (hc : s.CacheAgrees) (hp : s.InProgress) (hh : s.halted = false) :
    .fault .accOverflow ∉ (feedState b s).events ∧ (feedState b s).accLen ≤ 65538 := by
  have hle := accLen_le_of_inProgress hp hh
  obtain ⟨_, he⟩ | ⟨_, t, c, ha, he⟩ | ⟨_, t, sof, ha, he⟩ := feedState_cases b s <;> rw [he]
  · exact ⟨by simp, hle⟩
  · obtain ⟨_, hfull, _, _⟩ := append_ended ha
    omega
  · obtain ⟨_, hcfg, _, _⟩ := append_done_sameFrame ha
    exact afterAppend_noOverflow (hcfg ▸ hs) (append_done_cacheAgrees hc ha) (append_done_atMostComplete hh hp ha)
      ((append_done_halted ha).trans hh) (by cases sof <;> simp)

/-- Settles O35: a block in progress is below an accumulator of 65539 bytes, so `Append` never meets the capacity. -/
theorem overflowIsUnreachableThroughFeed : Obligations.OverflowIsUnreachableThroughFeed := by
  intro s t hs hcap hc hp hh he h
  obtain ⟨b, i, rfl⟩ | ⟨ha, hev⟩ | ⟨i, e, hne, rfl⟩ := eventStep_cases he h
  · exact feedState_noOverflow b hs hcap hc hp hh
  · exact ⟨by simp [hev], by simp [State.accLen, ha]⟩
  · exact ⟨hne _, accLen_le_of_inProgress hp hh⟩

end Sys2Proof.Machine
end

section
/-!
The accumulator space (20_memory.md): the one store of the block goes to index `acc_len` (R30, R35, R43), and the pure operations
neither read nor write any element of the block (R41, R88, R150).
-/
open Sys2Proof.Statements

namespace Sys2Proof.Machine

/-! ### The one store -/

/-- The accumulation is the same or grew by one byte. -/
def StoresAtMostOne (s t : State) : Prop := ∃ l : List Byte, l.length ≤ 1 ∧ t.acc = s.acc ++ l

theorem StoresAtMostOne.of_acc_eq {s t : State} (h : t.acc = s.acc) : StoresAtMostOne s t :=
  ⟨[], Nat.zero_le 1, by rw [h, List.append_nil]⟩

theorem StoresAtMostOne.of_acc_append {s t : State} {v : Byte} (h : t.acc = s.acc ++ [v]) : StoresAtMostOne s t :=
  ⟨[v], le_rfl, h⟩

theorem StoresAtMostOne.accLen {s t : State} (h : StoresAtMostOne s t) : t.accLen = s.accLen ∨ t.accLen = s.accLen + 1 := by
  obtain ⟨l, hl, ht⟩ := h
  simp only [State.accLen, ht, List.length_append]
  omega

/-- The frame of a store: below index `acc_len` the bytes stand as before, and above it there is none before or after. -/
theorem StoresAtMostOne.mem_memory_iff {s t : State} (h : StoresAtMostOne s t) {a : Nat} (ha : a ≠ s.accLen) (v : Byte) :
    (a, v) ∈ t.memory ↔ (a, v) ∈ s.memory := by
  obtain ⟨l, hl, ht⟩ := h
  rw [mem_memory, mem_memory, ht]
  obtain hlt | hgt := lt_or_gt_of_ne ha
  · rw [List.getElem?_append_left hlt]
  · have hs : s.acc.length < a := hgt
    have hsl : (s.acc ++ l).length ≤ a := by rw [List.length_append]; omega
    rw [List.getElem?_eq_none hsl, List.getElem?_eq_none hs.le]

theorem Stopped.acc_eq {c : FaultCode} {s t : State} {r : Option FaultCode} (h : Stopped c s t r) : t.acc = s.acc := by
  obtain ⟨_, _, rfl⟩ | ⟨_, _, rfl⟩ := h <;> rfl

/-- Of the rules of `Append` only the start delimiter's begins the accumulation anew. -/
theorem append_storesAtMostOne {b : Byte} (hb : b ≠ 0x7E#8) (s : State) : StoresAtMostOne s (append b s).state := by
  cases h : append b s with
  | ended t c =>
    obtain ⟨_, _, _, hs⟩ := append_ended h
    exact .of_acc_eq hs.acc_eq
  | done t sof =>
    obtain ⟨hsof, _⟩ | ⟨_, _, _, rfl⟩ | ⟨_, _, _, _, _, rfl⟩ | ⟨_, _, _, _, _, rfl⟩ | ⟨_, _, _, _, _, _, rfl⟩ :=
      append_done h
    · exact absurd hsof hb
    · exact .of_acc_eq rfl
    · exact .of_acc_eq rfl
    · exact .of_acc_append rfl
    · exact .of_acc_append rfl

theorem finish_storesAtMostOne {α : Type} {e : Effect α} {v : α → Value} {s t : State} (he : StoresAtMostOne s e.state)
    (h : e.finish v = .next t) : StoresAtMostOne s t := by
  obtain ⟨u, a, rfl, rfl⟩ | ⟨u, c, rfl, rfl⟩ := finish_next h <;> exact he

/-- Settles O16: each of the four instructions is the `Append` of a byte other than the start delimiter, which stores one byte at
most. -/
theorem appendStoresOnlyAtAccLen : Obligations.AppendStoresOnlyAtAccLen := by
  intro s t i b hb hi h
  have happ {c : Byte} (hc : c ≠ 0x7E#8) (h : (append c s).finish .bool = .next t) : StoresAtMostOne s t :=
    finish_storesAtMostOne (append_storesAtMostOne hc s) h
  have hst : StoresAtMostOne s t := by
    simp only [List.mem_cons, List.not_mem_nil, or_false] at hi
    obtain rfl | rfl | rfl | rfl := hi
    · exact happ hb h
    · exact happ hb h
    · exact happ hb h
    · exact happ (c := escByte) (by decide) h
  exact ⟨fun _ v ha => hst.mem_memory_iff ha v, hst.accLen⟩

/-! ### Pure operations in two states -/

/-- Two states give the same answer: one value, with no element changed, or one refusal. -/
def AnsweredAlike (s u : State) (x y : Host.Outcome State Fault Refusal) : Prop :=
  (∃ v, x = s.answer v ∧ y = u.answer v) ∨ ∃ r, x = .refused r ∧ y = .refused r

theorem answer_alike (s u : State) {v w : Value} (h : v = w) : AnsweredAlike s u (s.answer v) (u.answer w) :=
  .inl ⟨v, rfl, by rw [h]⟩

theorem rawAnswer_alike {α : Type} (a : Option α) (value : α → Value) (s u : State) :
    AnsweredAlike s u (rawAnswer a value s) (rawAnswer a value u) := by
  cases a with
  | none => exact .inr ⟨.rawTooShort, rfl, rfl⟩
  | some a => exact answer_alike s u rfl

theorem encodeAnswer_alike {p q : List Byte} (h : p = q) (m : Bool) (s u : State) :
    AnsweredAlike s u (encodeAnswer p m s) (encodeAnswer q m u) := by
  subst h
  unfold encodeAnswer
  split_ifs
  · exact .inr ⟨.payloadLength, rfl, rfl⟩
  · exact answer_alike s u rfl
  · exact answer_alike s u rfl

/-- Of the state a pure operation reads the parameters alone: R126 and R130 by way of the parsers, R156 and R157. -/
theorem exec_pure_alike {i : Instr} (hp : isPure i = true) {s u : State} (hc : u.cfg = s.cfg) :
    AnsweredAlike s u (exec i s) (exec i u) := by
  cases i with
  | rxPacket f => exact answer_alike s u (congrArg (fun c => Value.result (parse90 c f)) hc.symm)
  | nodeId f => exact answer_alike s u (congrArg (fun c => Value.result (parse95 c f)) hc.symm)
  | parseMux f => exact answer_alike s u (congrArg (fun c => Value.result (parseMux c f)) hc.symm)
  | modemStatus | extTxStatus | rxIo | ratResponse | routeRecordSkip | txRequestInbound | ratRequestInbound | otherTag
  | digitalSamples | analogSamples | deviceTypeClass => exact answer_alike s u rfl
  | be16 | shouldEscape | escapeAppend | unescape => exact answer_alike s u rfl
  | addressFromBytes | addressFromString | addressToString => exact answer_alike s u rfl
  | frameTypeOffset | logicalSum | checksum | checksumValid => exact rawAnswer_alike _ _ s u
  | encodeFrame p m => exact encodeAnswer_alike rfl m s u
  | buildTransmit a fid d m => exact encodeAnswer_alike (congrArg (transmitPayload · a fid d) hc.symm) m s u
  | buildRemoteATCommand a fid c0 c1 d m =>
    exact encodeAnswer_alike (congrArg (remoteATPayload · a fid c0 c1 d) hc.symm) m s u
  | sof | esc | escaped | data | escSeq7E | escSeq7D | escSeq11 | escSeq13 => cases hp
  | accChecksumValid | append | frameComplete | toFrame | reset | feed | abort | endOfStream | hardReset => cases hp

/-- Settles O30: the answer of a pure operation in one state is its answer in the other, a value or a refusal. -/
theorem pureOperationsTouchNoState : Obligations.PureOperationsTouchNoState := by
  intro i s u hp hc
  obtain ⟨v, hs, hu⟩ | ⟨q, hs, hu⟩ := exec_pure_alike hp hc <;> rw [hs, hu]
  · refine ⟨fun t h => ?_, fun r h => nomatch h⟩
    obtain rfl := answer_next.1 h
    rfl
  · exact ⟨fun t h => (nomatch h), fun r h => h⟩

end Sys2Proof.Machine
end

section
/-!
The decoders and the encoder as inverse relations (30_encoding.md): what a byte, an escape sequence and a frame decode to, said once
as an equation per row of the tables, and from it the two directions of the round trip.
-/

namespace Sys2Proof.Machine

/-! ### Byte classes (R55) -/

@[simp] theorem decodeByte_sof (m e : Bool) : decodeByte m e 0x7E#8 = .sof := by
  simp [decodeByte]

@[simp] theorem decodeByte_esc : decodeByte true false 0x7D#8 = .esc := rfl

theorem decodeByte_escaped {b : Byte} (m : Bool) (hb : b ≠ 0x7E#8) : decodeByte m true b = .escaped b := by
  simp [decodeByte, byteClass_eq_escaped.2 ⟨hb, rfl⟩]

theorem decodeByte_data {m : Bool} {b : Byte} (hb : b ≠ 0x7E#8) (hm : b = 0x7D#8 → m = false) :
    decodeByte m false b = .data b := by
  simp [decodeByte, byteClass_eq_data.2 ⟨hb, rfl, hm⟩]

/-- Settles O3: the four rows of the table are the four equations of `decodeByte`. -/
theorem byteClassesFollowTheTable : Obligations.ByteClassesFollowTheTable := by
  intro m e b
  refine ⟨?_, ?_, ?_, ?_⟩
  · rintro rfl
    exact decodeByte_sof m e
  · rintro ⟨rfl, rfl, rfl⟩
    exact decodeByte_esc
  · rintro ⟨hb, rfl⟩
    exact decodeByte_escaped m hb
  · rintro ⟨hb, rfl, hm⟩
    exact decodeByte_data hb fun h => by simpa [h] using hm

/-- A raw byte is the code of what it decodes to, which stands where it is read so. -/
theorem encode_decodeByte (m e : Bool) (b : Byte) :
    encode (decodeByte m e b) = some (.byte b) ∧ (decodeByte m e b).fits m e = true := by
  cases hc : byteClass m e b with
  | sof =>
    obtain rfl := byteClass_eq_sof.1 hc
    simp [encode, Instr.fits]
  | esc =>
    obtain ⟨rfl, rfl, rfl⟩ := byteClass_eq_esc.1 hc
    exact ⟨rfl, rfl⟩
  | escaped =>
    obtain ⟨hb, rfl⟩ := byteClass_eq_escaped.1 hc
    simp [decodeByte_escaped m hb, encode, Instr.fits, hb]
  | data =>
    obtain ⟨hb, rfl, hm⟩ := byteClass_eq_data.1 hc
    simp only [decodeByte_data hb hm, encode, Instr.fits]
    cases m <;> simp_all

/-! ### Escape sequences (R53) -/

/-- A pair that decodes is the code of the sequence read, which stands anywhere. -/
theorem encode_of_decodePair {a b : Byte} {i : Instr} (m e : Bool) (h : decodePair a b = .ok i) :
    encode i = some (.pair a b) ∧ i.fits m e = true := by
  unfold decodePair at h
  split_ifs at h <;> cases h
  -- the branches that reject are gone; in each of the four left, both bytes are given
  all_goals
    subst_vars
    exact ⟨rfl, rfl⟩

/-! ### Frame-type tags (R56) -/

/-- R56: the instruction of a frame under each tag. -/
inductive TagRow (f : Frame) : Byte → Instr → Prop
  | modemStatus : TagRow f 0x8A#8 (.modemStatus f)
  | extTxStatus : TagRow f 0x8B#8 (.extTxStatus f)
  | rxPacket : TagRow f 0x90#8 (.rxPacket f)
  | rxIo : TagRow f 0x92#8 (.rxIo f)
  | nodeId : TagRow f 0x95#8 (.nodeId f)
  | ratResponse : TagRow f 0x97#8 (.ratResponse f)
  | routeRecordSkip : TagRow f 0xA1#8 (.routeRecordSkip f)
  | txRequestInbound : TagRow f 0x10#8 (.txRequestInbound f)
  | ratRequestInbound : TagRow f 0x17#8 (.ratRequestInbound f)
  | otherTag {tag : Byte} (h : listedTag tag = false) : TagRow f tag (.otherTag f)

theorem decodeFrame_of_tagRow {f : Frame} {tag : Byte} {q : List Byte} {i : Instr} (hp : f.payload = tag :: q)
    (hr : TagRow f tag i) : decodeFrame f = .ok i := by
  cases hr with
  | otherTag h => simp_all [decodeFrame, listedTag]
  | _ => simp [decodeFrame, hp]

theorem tagRow_of_decodeFrame {f : Frame} {i : Instr} (h : decodeFrame f = .ok i) :
    ∃ tag q, f.payload = tag :: q ∧ TagRow f tag i := by
  unfold decodeFrame at h
  cases hp : f.payload with
  | nil => simp [hp] at h
  | cons tag q =>
    refine ⟨tag, q, rfl, ?_⟩
    rw [hp] at h
    obtain rfl := Except.ok.inj h
    split_ifs <;> subst_vars
    case neg => exact .otherTag (by simp [listedTag, *])
    all_goals constructor

/-- A frame that decodes is the code of its tag's row, which stands where the frame carries that tag. -/
theorem encode_of_decodeFrame {f : Frame} {i : Instr} (m e : Bool) (h : decodeFrame f = .ok i) :
    encode i = some (.frame f) ∧ i.fits m e = true := by
  obtain ⟨tag, q, hp, hr⟩ := tagRow_of_decodeFrame h
  cases hr with
  | otherTag ht => simp [encode, Instr.fits, hp, ht]
  | _ => simp [encode, Instr.fits, hp]

/-! ### The round trip -/

/-- Settles O2: by the kind of code, a byte, a pair or a frame. -/
theorem encodeOfDecodeIsIdentity : Obligations.EncodeOfDecodeIsIdentity := by
  intro m e c i h
  cases c with
  | byte b =>
    obtain rfl := Except.ok.inj h
    exact encode_decodeByte m e b
  | pair a b => exact encode_of_decodePair m e h
  | frame f => exact encode_of_decodeFrame m e h

/-- Where an encodable instruction fits, its code is read as it; `fits` holds all that the decoder looks at, so that
well-formedness is not needed. -/
theorem decode_of_encode {m e : Bool} {i : Instr} {c : Code} (hf : i.fits m e = true) (hc : encode i = some c) :
    decode m e c = .ok i := by
  cases i with
  | sof =>
    cases hc
    exact congrArg _ (decodeByte_sof m e)
  | esc =>
    cases hc
    obtain ⟨rfl, rfl⟩ : m = true ∧ e = false := by simpa [Instr.fits] using hf
    rfl
  | escaped b =>
    cases hc
    obtain ⟨rfl, hb⟩ : e = true ∧ b ≠ 0x7E#8 := by simpa [Instr.fits] using hf
    exact congrArg _ (decodeByte_escaped m hb)
  | data b =>
    cases hc
    obtain ⟨⟨rfl, hb⟩, hm⟩ : (e = false ∧ b ≠ 0x7E#8) ∧ (m = false ∨ b ≠ 0x7D#8) := by simpa [Instr.fits] using hf
    exact congrArg _ (decodeByte_data hb fun h => hm.resolve_right (not_not_intro h))
  | escSeq7E | escSeq7D | escSeq11 | escSeq13 =>
    cases hc
    rfl
  | modemStatus f | extTxStatus f | rxPacket f | rxIo f | nodeId f | ratResponse f | routeRecordSkip f
  | txRequestInbound f | ratRequestInbound f =>
    cases hc
    obtain ⟨q, hp⟩ := List.head?_eq_some_iff.1 (beq_iff_eq.1 hf)
    exact decodeFrame_of_tagRow hp (by constructor)
  | otherTag f =>
    cases hc
    cases hp : f.payload with
    | nil => simp [Instr.fits, hp] at hf
    | cons tag q => exact decodeFrame_of_tagRow hp (.otherTag (by simpa [Instr.fits, hp] using hf))
  | _ => cases hc

/-- Settles O1: by the row of the tables that the instruction stands in. -/
theorem decodeOfEncodeIsIdentity : Obligations.DecodeOfEncodeIsIdentity :=
  fun _ _ _ _ _ => decode_of_encode

/-- Settles O4: ten words, each decoded by computation. -/
theorem sampleWordsDecode : Obligations.SampleWordsDecode :=
  ⟨rfl, rfl, rfl, rfl, rfl, rfl, rfl, rfl, rfl, rfl⟩

end Sys2Proof.Machine
end

section
/-!
The directives of the stimulus script (30_encoding.md section 8, R72): each event's line is cut into its words and read back.
-/

namespace Sys2Proof.Machine

/-- Neither a blank nor a comment sign stands among the characters. -/
def PlainWord (w : Text) : Prop := ∀ c ∈ w, c ≠ '#' ∧ c ≠ ' '

/-- A run of plain characters at the end of a line is one word, with the characters read before it. -/
theorem scriptWords_plain {cur w : Text} (hw : PlainWord w) (hne : cur ++ w ≠ []) : scriptWords cur w = [cur ++ w] := by
  induction w generalizing cur with
  | nil => simpa [scriptWords] using hne
  | cons c cs ih =>
    obtain ⟨hc, hcs⟩ := List.forall_mem_cons.1 hw
    rw [scriptWords, if_neg hc.1, if_neg hc.2, ih hcs (by simp), List.append_assoc, List.singleton_append]

theorem hexDigit_plain {n : Nat} (h : n < 16) : hexDigit n ≠ '#' ∧ hexDigit n ≠ ' ' := by
  revert n
  decide

theorem hexByte_plain (b : Byte) : PlainWord (hexByte b) := by
  have hhi : b.toNat / 16 < 16 := by omega
  have hlo : b.toNat % 16 < 16 := by omega
  simp only [PlainWord, hexByte, List.forall_mem_cons]
  exact ⟨hexDigit_plain hhi, hexDigit_plain hlo, fun _ h => nomatch h⟩

/-- The line of `feed` is the word `feed` and the two digits of its byte (R72). -/
theorem scriptWords_feed (b : Byte) :
    scriptWords [] (['f', 'e', 'e', 'd', ' '] ++ hexByte b) = [['f', 'e', 'e', 'd'], hexByte b] :=
  congrArg (['f', 'e', 'e', 'd'] :: ·) (scriptWords_plain (cur := []) (hexByte_plain b) (by simp [hexByte]))

theorem feedOperand_hexByte (b : Byte) : feedOperand (hexByte b) = some (.feed b) := by
  simp [hexByte, feedOperand, byteOfHex_hexByte]

theorem decodeDirective_feed (b : Byte) :
    decodeDirective (['f', 'e', 'e', 'd', ' '] ++ hexByte b) = .ok [.feed b] := by
  rw [decodeDirective, scriptWords_feed]
  simp [feedOperands, feedOperand_hexByte]

/-- Settles O5: by the event; the words of all but `feed` are fixed. -/
theorem directivesReadBack : Obligations.DirectivesReadBack := by
  intro i t h
  cases i with
  | hardReset m =>
    cases h
    cases m <;> rfl
  | feed b =>
    cases h
    exact decodeDirective_feed b
  | abort | endOfStream =>
    cases h
    rfl
  | _ => cases h

end Sys2Proof.Machine
end

section
/-!
What the decoded instruction does (30_encoding.md, R55, R56, R72): a byte class is the `Append` of its byte, an escape sequence the
`Append` of its two bytes, and a tag's row the answer of the multiplexer.
-/
open Sys2Proof.Statements

namespace Sys2Proof.Machine

/-! ### Byte classes (R55, R100) -/

/-- Whatever class a byte is read in, the instruction is the `Append` of that byte (notes/assumptions/9.md). -/
theorem exec_decodeByte (m e : Bool) (b : Byte) (s : State) :
    exec (decodeByte m e b) s = (append b s).finish .bool := by
  cases hc : byteClass m e b with
  | sof =>
    obtain rfl := byteClass_eq_sof.1 hc
    rw [decodeByte_sof]
    rfl
  | esc =>
    obtain ⟨rfl, rfl, rfl⟩ := byteClass_eq_esc.1 hc
    rfl
  | escaped | data =>
    rw [decodeByte, hc]
    rfl

/-- Settles O8: both sides are the shared operation on the byte. -/
theorem appendDispatchesOnTheClass : Obligations.AppendDispatchesOnTheClass :=
  fun s b => (exec_decodeByte s.mode s.escPending b s).symm

theorem step_of_input_byte {s : State} {b : Byte} {rest : List Input} (h : s.input = .byte b :: rest) :
    step s = .next (feedState b { s with input := rest }) :=
  step_of_input_cons h

/-- On a block that is not halted the cause of a fault is reported by its event (R184). -/
theorem Stopped.faultEvents_ne_nil {c : FaultCode} {s t : State} {r : Option FaultCode} (h : Stopped c s t r)
    (hs : s.halted = false) : faultEvents r ≠ [] := by
  obtain ⟨_, rfl, _⟩ | ⟨hh, _⟩ := h
  · simp
  · simp [hs] at hh

/-- Settles O7: an ended `Append` ends the step as it stands, and a completed one is followed by the completion query, to which
the outputs of the instruction do not matter. -/
theorem byteStepExecutesTheDecodedClass : Obligations.ByteStepExecutesTheDecodedClass := by
  intro s t b rest hs hin ht
  rw [exec_decodeByte] at ht
  rw [step_of_input_byte hin]
  obtain ⟨hh, _⟩ | ⟨_, u, c, ha, hf⟩ | ⟨_, u, sof, ha, hf⟩ := feedState_cases b { s with input := rest }
  · exact absurd (hs.symm.trans hh) (by decide)
  · rw [ha] at ht
    cases ht
    obtain ⟨_, _, _, hst⟩ := append_ended ha
    have hne : faultEvents c ≠ [] := hst.faultEvents_ne_nil hs
    exact ⟨fun _ => congrArg _ hf, fun he => absurd he hne⟩
  · rw [ha] at ht
    cases ht
    refine ⟨fun he => absurd rfl he, fun _ => ?_⟩
    rw [hf, afterAppend_emit]
    simp

/-! ### Escape sequences (R53, R102, R103) -/

theorem dropsIdle_of_accepts {s : State} (h : accepts s) : s.dropsIdle = false := by
  obtain h | h := h <;> simp [State.dropsIdle, h]

theorem append_marker {s : State} (hm : s.mode = true) (he : s.escPending = false) (hd : s.dropsIdle = false) :
    append 0x7D#8 s = .done { s with escPending := true } false := by
  simp [append, byteClass_eq_esc.2 ⟨rfl, hm, he⟩, hd, appendEsc]

theorem append_after_marker {b : Byte} {s : State} (hb : b ≠ 0x7E#8) (he : s.escPending = true)
    (hd : s.dropsIdle = false) (hcap : s.accLen ≠ s.cfg.accCap) :
    append b s = .done { storeByte (flipBit5 b) s with escPending := false } false := by
  simp [append, byteClass_eq_escaped.2 ⟨hb, he⟩, hd, appendEscaped, hcap]

/-- A marker and the byte after it store the one byte flipped, and the flag is as it was. -/
theorem appendPair_escape {b : Byte} {s : State} (hb : b ≠ 0x7E#8) (hm : s.mode = true) (he : s.escPending = false)
    (ha : accepts s) (hcap : s.accLen ≠ s.cfg.accCap) :
    appendPair escByte b s = .done (storeByte (flipBit5 b) s) false := by
  have hd := dropsIdle_of_accepts ha
  have hb' := append_after_marker (s := { s with escPending := true }) hb rfl hd hcap
  simp [appendPair, append_marker hm he hd, hb', storeByte, ← he]

/-- Settles O15: the four sequences differ in the second byte alone. -/
theorem escapeSequencesStoreTheLogicalByte : Obligations.EscapeSequencesStoreTheLogicalByte := by
  intro s hm he ha hcap
  have hpair (b : Byte) (hb : b ≠ 0x7E#8) :
      (appendPair escByte b s).finish .bool =
        .next { s with acc := s.acc ++ [flipBit5 b], events := [], ret := .bool false } := by
    rw [appendPair_escape hb hm he ha hcap]
    rfl
  exact ⟨hpair 0x5E#8 (by decide), hpair 0x5D#8 (by decide), hpair 0x31#8 (by decide), hpair 0x33#8 (by decide)⟩

/-! ### The multiplexer (R120) -/

theorem exec_parseMux {s : State} {f : Frame} {r : ParseResult} (h : parseMux s.cfg f = r) :
    exec (.parseMux f) s = s.answer (.result r) :=
  congrArg (fun r => s.answer (.result r)) h

/-- A tag's row and the multiplexer answer the same for a frame that carries the tag. -/
theorem exec_parseMux_of_tagRow {s : State} {f : Frame} {tag : Byte} {q : List Byte} {i : Instr}
    (hp : f.payload = tag :: q) (hr : TagRow f tag i) : exec (.parseMux f) s = exec i s := by
  cases hr with
  | modemStatus | extTxStatus | rxPacket | rxIo | nodeId | ratResponse => exact exec_parseMux (by simp [parseMux, hp])
  | routeRecordSkip | txRequestInbound | ratRequestInbound =>
    refine exec_parseMux (Eq.trans ?_ (guarded_body hp (Nat.le_add_left 1 q.length)).symm)
    simp [parseMux, hp]
  | otherTag h => exact exec_parseMux (by simp_all [parseMux, otherTagResult, listedTag])

/-- Settles O9: by the row of the frame's tag. -/
theorem multiplexerExecutesTheDecodedTag : Obligations.MultiplexerExecutesTheDecodedTag := by
  intro s f i h
  obtain ⟨tag, q, hp, hr⟩ := tagRow_of_decodeFrame h
  exact exec_parseMux_of_tagRow hp hr

/-! ### The device-type byte (R71, R131) -/

/-- Settles O51: a byte is one of the three listed exactly when its number is. -/
theorem deviceTypeClassOfByte : Obligations.DeviceTypeClassOfByte := by
  intro s d
  have hd : deviceTypeClass d = if d.toNat = 0 then .coordinator else if d.toNat = 1 then .router
      else if d.toNat = 2 then .endDevice else .undefined := by
    simp only [deviceTypeClass, BitVec.toNat_eq, BitVec.toNat_ofNat, Nat.reducePow, Nat.reduceMod]
  exact congrArg (fun c => s.answer (.deviceClass c)) hd

end Sys2Proof.Machine
end

section
/-!
The escape primitives (40_primitives.md, R80 to R82, R89): the reserved set and what is emitted for a byte in the statements' own
terms, and `Unescape` by an equation per case of its loop.
-/
open Sys2Proof.Statements

namespace Sys2Proof.Machine

/-- Settles O38: the model's word, by its value. -/
theorem be16IsBigEndian : Obligations.Be16IsBigEndian :=
  fun _ hi lo => ⟨be16 hi lo, be16_toNat hi lo, rfl⟩

/-! ### Escaping (R80, R81) -/

theorem shouldEscape_eq_mem (b : Byte) : shouldEscape b = decide (b ∈ [0x7E#8, 0x7D#8, 0x11#8, 0x13#8]) := by
  rw [Bool.eq_iff_iff, shouldEscape_iff]
  simp

theorem escapeByte_eq_escapeSpec (m : Bool) (b : Byte) : escapeByte m b = escapeSpec m b := by
  simp only [escapeByte, escapeSpec, shouldEscape_eq_mem, Bool.and_eq_true, decide_eq_true_eq, flipBit5]

theorem escapeAll_eq_flatMap (m : Bool) (p : List Byte) : escapeAll m p = p.flatMap (escapeSpec m) :=
  congrArg p.flatMap (funext (escapeByte_eq_escapeSpec m))

/-- Settles O39: the reserved set and the emitted bytes are the model's. -/
theorem escapeAppendEscapesTheReservedSet : Obligations.EscapeAppendEscapesTheReservedSet := by
  intro s m out b reserved
  have hr : reserved = shouldEscape b := (shouldEscape_eq_mem b).symm
  rw [hr, ← escapeByte_eq_escapeSpec]
  exact ⟨rfl, rfl⟩

/-! ### Unescaping (R82) -/

theorem exec_unescape_eq_returns {s : State} {l out : List Byte} {m flag : Bool} :
    exec (.unescape l m) s = returns s (.bytesBool out flag) ↔ unescape l m = (out, flag) := by
  simp [exec, execUnescape, State.answer, State.emit, returns, Prod.ext_iff]

/-- A marker and the byte after it give that byte flipped, before what the rest gives. -/
theorem unescape_marker {l out : List Byte} {flag : Bool} (b : Byte) (h : unescape l true = (out, flag)) :
    unescape (0x7D#8 :: b :: l) true = (flipBit5 b :: out, flag) := by
  rw [unescape] at h ⊢
  simp [unescapeFrom, h]

/-- A byte other than the marker gives itself, before what the rest gives. -/
theorem unescape_plain {l out : List Byte} {flag : Bool} {b : Byte} (hb : b ≠ 0x7D#8)
    (h : unescape l true = (out, flag)) : unescape (b :: l) true = (b :: out, flag) := by
  rw [unescape] at h ⊢
  simp [unescapeFrom, hb, h]

/-- Settles O40: one equation of the loop per case. -/
theorem unescapeDecodesOnTheFly : Obligations.UnescapeDecodesOnTheFly := by
  intro s l out flag b
  simp only [exec_unescape_eq_returns]
  exact ⟨unescapeFrom_false l, rfl, rfl, fun h => ⟨unescape_marker b h, fun hb => unescape_plain hb h⟩⟩

theorem unescape_escapeAll (m : Bool) (p : List Byte) : unescape (escapeAll m p) m = (p, false) := by
  simpa [unescape, unescapeFrom] using unescapeFrom_escapeAll m p []

/-- Settles O41: the round trip of the model's own escaping. -/
theorem unescapeInvertsEscape : Obligations.UnescapeInvertsEscape := by
  intro s m p
  rw [exec_unescape_eq_returns, ← escapeAll_eq_flatMap]
  exact unescape_escapeAll m p

end Sys2Proof.Machine
end

section
/-!
The functions on a raw sequence (40_primitives.md, R83 to R87, U5): where the tag stands, and the sum of the logical bytes from
there on as a natural number.
-/
open Sys2Proof.Statements

namespace Sys2Proof.Machine

theorem rawAnswer_some {α : Type} {a : Option α} {v : α} (h : a = some v) (value : α → Value) (s : State) :
    rawAnswer a value s = returns s (value v) := by
  rw [h]
  rfl

theorem rawAnswer_none {α : Type} {a : Option α} (h : a = none) (value : α → Value) (s : State) :
    rawAnswer a value s = .refused .rawTooShort := by
  rw [h]
  rfl

/-! ### FrameTypeOffset (R83) -/

theorem afterLengthByte_marker {raw : List Byte} {i : Nat} (h : raw[i]? = some 0x7D#8) :
    afterLengthByte raw true i = i + 2 :=
  if_pos ⟨rfl, h⟩

theorem afterLengthByte_plain {raw : List Byte} {b : Byte} {i : Nat} (h : raw[i]? = some b) (hb : b ≠ 0x7D#8) :
    afterLengthByte raw true i = i + 1 :=
  if_neg fun hm => hb (Option.some.inj (h.symm.trans hm.2))

/-- The offset is where the second length byte ends, `i` being where the first does. -/
theorem exec_frameTypeOffset_accepts {raw : List Byte} {m : Bool} {i o : Nat} (hi : afterLengthByte raw m 1 = i)
    (ho : afterLengthByte raw m i = o) (hl : o ≤ raw.length) (s : State) :
    exec (.frameTypeOffset raw m) s = returns s (.nat o) := by
  refine rawAnswer_some ?_ .nat s
  simp [frameTypeOffset, hi, ho, hl]

/-- The call is refused where the sequence ends before the second length byte does. -/
theorem exec_frameTypeOffset_refuses {raw : List Byte} {m : Bool} {i o : Nat} (hi : afterLengthByte raw m 1 = i)
    (ho : afterLengthByte raw m i = o) (hl : raw.length < o) (s : State) :
    exec (.frameTypeOffset raw m) s = .refused .rawTooShort := by
  refine rawAnswer_none ?_ .nat s
  simp [frameTypeOffset, hi, ho, hl]

theorem frameTypeOffset_of_length_lt {raw : List Byte} (h : raw.length < 3) (m : Bool) : frameTypeOffset raw m = none := by
  refine Option.eq_none_iff_forall_ne_some.2 fun o ho => ?_
  obtain ⟨hlo, _, hlen⟩ := frameTypeOffset_some ho
  omega

theorem frameTypeOffset_unescaped {raw : List Byte} (h : 3 ≤ raw.length) : frameTypeOffset raw false = some 3 :=
  if_pos h

/-- Settles O42: each length byte is passed by its form, and the end is within the sequence or not. -/
theorem frameTypeOffsetSkipsMarkers : Obligations.FrameTypeOffsetSkipsMarkers := by
  intro s raw q m d hi lo e g
  refine ⟨?_, fun hhi hlo => ?_, fun hhi => ?_, fun hlo => ?_, ?_, fun hl => ?_, fun hhi => ?_, ?_, ?_⟩
  · have h3 : frameTypeOffset (d :: hi :: lo :: q) false = some 3 := frameTypeOffset_unescaped (by simp)
    exact rawAnswer_some h3 .nat s
  · exact exec_frameTypeOffset_accepts (afterLengthByte_plain rfl hhi) (afterLengthByte_plain rfl hlo) (by simp) s
  · exact exec_frameTypeOffset_accepts (afterLengthByte_plain rfl hhi) (afterLengthByte_marker rfl) (by simp) s
  · exact exec_frameTypeOffset_accepts (afterLengthByte_marker rfl) (afterLengthByte_plain rfl hlo) (by simp) s
  · exact exec_frameTypeOffset_accepts (afterLengthByte_marker rfl) (afterLengthByte_marker rfl) (by simp) s
  · exact rawAnswer_none (frameTypeOffset_of_length_lt hl m) .nat s
  · exact exec_frameTypeOffset_refuses (afterLengthByte_plain rfl hhi) (afterLengthByte_marker rfl) (by simp) s
  · have hlo : afterLengthByte [d, 0x7D#8, e] true 3 = 4 := by simp [afterLengthByte]
    exact exec_frameTypeOffset_refuses (afterLengthByte_marker rfl) hlo (by simp) s
  · exact exec_frameTypeOffset_refuses (afterLengthByte_marker rfl) (afterLengthByte_marker rfl) (by simp) s

/-! ### Sums (R84 to R86) -/

theorem byteSum_eq_natSum (l : List Byte) : byteSum l = BitVec.ofNat 8 (natSum l % 256) :=
  BitVec.eq_of_toNat_eq (by rw [byteSum_toNat, BitVec.toNat_ofNat, Nat.mod_mod]; rfl)

theorem complement_byteSum_eq_natSum (l : List Byte) : 0xFF#8 - byteSum l = BitVec.ofNat 8 (255 - natSum l % 256) := by
  rw [byteSum_eq_natSum]
  bv_omega

theorem byteSum_beq_eq_natSum (l : List Byte) : (byteSum l == 0xFF#8) = decide (natSum l % 256 = 255) := by
  rw [Bool.eq_iff_iff, beq_iff_eq, BitVec.toNat_eq, byteSum_toNat, decide_eq_true_eq]
  rfl

theorem frameTypeOffset_of_unreadable {raw : List Byte} {m : Bool} (h : rawReadable raw m = false) :
    frameTypeOffset raw m = none :=
  Option.isNone_iff_eq_none.1 (by simpa [rawReadable] using h)

theorem logicalSum_of_offset {raw : List Byte} {m : Bool} {o : Nat} (h : frameTypeOffset raw m = some o) :
    logicalSum raw m = some (byteSum (unescape (raw.drop o) m).1) := by
  rw [logicalSum, h, Option.map_some]

theorem logicalSum_of_unreadable {raw : List Byte} {m : Bool} (h : rawReadable raw m = false) : logicalSum raw m = none := by
  rw [logicalSum, frameTypeOffset_of_unreadable h, Option.map_none]

theorem checksum_of_offset {raw : List Byte} {m : Bool} {o : Nat} (h : frameTypeOffset raw m = some o) :
    checksum raw m = some (0xFF#8 - byteSum (unescape (raw.drop o) m).1) := by
  rw [checksum, logicalSum_of_offset h, Option.map_some]

theorem checksum_of_unreadable {raw : List Byte} {m : Bool} (h : rawReadable raw m = false) : checksum raw m = none := by
  rw [checksum, logicalSum_of_unreadable h, Option.map_none]

theorem checksumValid_of_offset {raw : List Byte} {m : Bool} {o : Nat} (h : frameTypeOffset raw m = some o) :
    checksumValid raw m = some (byteSum (unescape (raw.drop o) m).1 == 0xFF#8) := by
  rw [checksumValid, logicalSum_of_offset h, Option.map_some]

theorem checksumValid_of_unreadable {raw : List Byte} {m : Bool} (h : rawReadable raw m = false) :
    checksumValid raw m = none := by
  rw [checksumValid, logicalSum_of_unreadable h, Option.map_none]

/-- Settles O43: by whether the sequence has an offset; the model's byte of each function is the one of the natural sum. -/
theorem checksumFunctionsSumLogicalBytes : Obligations.ChecksumFunctionsSumLogicalBytes := by
  intro s raw m
  refine ⟨fun h => ?_, fun h => ?_⟩
  · obtain ⟨o, ho⟩ := Option.isSome_iff_exists.1 h
    refine ⟨o, (unescape (raw.drop o) m).1, (unescape (raw.drop o) m).2, rawAnswer_some ho .nat s,
      exec_unescape_eq_returns.2 rfl, ?_⟩
    rw [← byteSum_eq_natSum, ← complement_byteSum_eq_natSum, ← byteSum_beq_eq_natSum]
    exact ⟨rawAnswer_some (logicalSum_of_offset ho) .byte s, rawAnswer_some (checksum_of_offset ho) .byte s,
      rawAnswer_some (checksumValid_of_offset ho) .bool s⟩
  · exact ⟨rawAnswer_none (frameTypeOffset_of_unreadable h) .nat s, rawAnswer_none (logicalSum_of_unreadable h) .byte s,
      rawAnswer_none (checksum_of_unreadable h) .byte s, rawAnswer_none (checksumValid_of_unreadable h) .bool s⟩

/-! ### AccChecksumValid (R87) -/

theorem exec_accChecksumValid_of_some {s : State} {b : Bool} (h : accCheck s.cfg s.mode s.acc = some b) :
    exec .accChecksumValid s = returns s (.bool b) := by
  simp only [exec, execAccChecksumValid, h, State.answer, State.emit, returns]

/-- Where the rule has no result the answer is some free value (notes/assumptions/2.md). -/
theorem exec_accChecksumValid_of_none {s : State} (h : accCheck s.cfg s.mode s.acc = none) : ∃ v : Bool,
    exec .accChecksumValid s = .next { s with freeCount := s.freeCount + 1, events := [], ret := .bool v } :=
  ⟨Config.freeBit s.freeCount == 1#1, by simp only [exec, execAccChecksumValid, h, State.answer, State.emit]⟩

theorem accCheck_of_length_lt {cfg : Config} {mode : Bool} {acc : List Byte} (h : acc.length < 4) :
    accCheck cfg mode acc = none :=
  if_pos h

theorem accCheck_default {cfg : Config} {mode : Bool} {acc : List Byte} (h : 4 ≤ acc.length)
    (hr : cfg.accCheckRedecode = false) : accCheck cfg mode acc = some (byteSum (acc.drop 3) == 0xFF#8) := by
  simp [accCheck, Nat.not_lt.2 h, hr]

theorem accCheck_redecode {cfg : Config} {mode : Bool} {acc : List Byte} (h : 4 ≤ acc.length)
    (hr : cfg.accCheckRedecode = true) : accCheck cfg mode acc = checksumValid acc mode := by
  simp [accCheck, Nat.not_lt.2 h, hr]

/-- With no second decoding, the check of a raw sequence is the sum from index 3. -/
theorem checksumValid_unescaped {raw : List Byte} (h : 3 ≤ raw.length) :
    checksumValid raw false = some (byteSum (raw.drop 3) == 0xFF#8) := by
  rw [checksumValid_of_offset (frameTypeOffset_unescaped h), unescape, unescapeFrom_false]

/-- Settles O23: by the parameter, and by whether the check has a result. -/
theorem accChecksumSumsFromIndexThree : Obligations.AccChecksumSumsFromIndexThree := by
  refine ⟨fun s h4 hr => ?_, fun s h4 hr hok => ?_, fun s h4 hr => ?_, fun s hno => ?_⟩
  · rw [← byteSum_beq_eq_natSum]
    exact exec_accChecksumValid_of_some (accCheck_default h4 hr)
  · obtain ⟨o, ho⟩ := Option.isSome_iff_exists.1 hok
    have hv := checksumValid_of_offset ho
    exact (exec_accChecksumValid_of_some ((accCheck_redecode h4 hr).trans hv)).trans (rawAnswer_some hv .bool s).symm
  · have hv := checksumValid_unescaped (Nat.le_of_succ_le h4)
    exact (exec_accChecksumValid_of_some (accCheck_default h4 hr)).trans (rawAnswer_some hv .bool s).symm
  · refine exec_accChecksumValid_of_none ?_
    by_cases h4 : s.acc.length < 4
    · exact accCheck_of_length_lt h4
    · obtain h | ⟨hr, hno⟩ := hno
      · exact absurd h h4
      · exact (accCheck_redecode (Nat.not_lt.1 h4) hr).trans (checksumValid_of_unreadable hno)

end Sys2Proof.Machine
end

section
/-!
`Append` (41_decoder.md section 1): one equation per rule, with the discard while idle (R105) and the overflow at capacity (R115)
between them.
-/
open Sys2Proof.Statements

namespace Sys2Proof.Machine

/-! ### What a fault leaves as an instruction's outcome -/

/-- R184: the bit set, the event and the condition returned. -/
theorem finish_raiseFault_running {α : Type} {v : α → Value} {c : FaultCode} {s : State} (h : s.halted = false) :
    (raiseFault c s : Effect α).finish v =
      .next { s with fault := faultBit c, events := [.fault c], ret := .raised (faultCondition c) } := by
  rw [raiseFault_running h]
  rfl

/-- R185: nothing further (notes/assumptions/11.md). -/
theorem finish_raiseFault_halted {α : Type} {v : α → Value} {c : FaultCode} {s : State} (h : s.halted = true) :
    (raiseFault c s : Effect α).finish v = returns s .none := by
  rw [raiseFault_halted h]
  rfl

/-! ### The rules -/

theorem append_sof (s : State) :
    append 0x7E#8 s = .done { s with acc := [0x7E#8], escPending := false,
                                     nCached := if s.cfg.sofClearsN then 0#16 else s.nCached } true := by
  simp [append, appendSof]

theorem append_idle {b : Byte} {s : State} (hb : b ≠ 0x7E#8) (hd : s.dropsIdle = true) : append b s = .done s false := by
  have hc : byteClass s.mode s.escPending b ≠ .sof := fun h => hb (byteClass_eq_sof.1 h)
  unfold append
  cases h : byteClass s.mode s.escPending b with
  | sof => exact absurd h hc
  | esc | escaped | data => exact if_pos hd

theorem append_data {b : Byte} {s : State} (hb : b ≠ 0x7E#8) (he : s.escPending = false) (hm : b ≠ 0x7D#8 ∨ s.mode = false)
    (hd : s.dropsIdle = false) (hcap : s.accLen ≠ s.cfg.accCap) : append b s = .done (storeByte b s) false := by
  have hc := byteClass_eq_data.2 ⟨hb, he, hm.neg_resolve_left⟩
  simp [append, hc, hd, appendData, hcap]

/-- R115: at capacity the two rules that store raise instead. -/
theorem append_full {b : Byte} {s : State} (hb : b ≠ 0x7E#8) (hm : s.escPending = true ∨ b ≠ 0x7D#8 ∨ s.mode = false)
    (hd : s.dropsIdle = false) (hcap : s.accLen = s.cfg.accCap) : append b s = raiseFault .accOverflow s := by
  cases he : s.escPending with
  | true =>
    have hc := (byteClass_eq_escaped (m := s.mode)).2 ⟨hb, he⟩
    simp [append, hc, hd, appendEscaped, hcap]
  | false =>
    have hdata : b ≠ 0x7D#8 ∨ s.mode = false := by simpa [he] using hm
    have hc := byteClass_eq_data.2 ⟨hb, he, hdata.neg_resolve_left⟩
    simp [append, hc, hd, appendData, hcap]

/-! ### The rows (R101 to R105) -/

/-- Settles O11: the marker's rule looks at the discard alone, not at the capacity. -/
theorem escapeMarkerIsConsumed : Obligations.EscapeMarkerIsConsumed := by
  intro s hm he ha
  have happ : (append 0x7D#8 s).finish .bool = .next { s with escPending := true, events := [], ret := .bool false } := by
    rw [append_marker hm he (dropsIdle_of_accepts ha)]
    rfl
  exact ⟨happ, happ⟩

/-- Settles O12: below capacity, at capacity, and at capacity on a halted block. -/
theorem escapedByteIsStoredFlipped : Obligations.EscapedByteIsStoredFlipped := by
  intro s b he hb ha
  have hd := dropsIdle_of_accepts ha
  refine ⟨rfl, fun hcap => ?_, fun hcap hh => ?_, fun hcap hh => ?_⟩ <;> simp only [exec, execEscaped]
  · rw [append_after_marker hb he hd hcap]
    rfl
  · rw [append_full hb (.inl he) hd hcap]
    exact finish_raiseFault_running hh
  · rw [append_full hb (.inl he) hd hcap]
    exact finish_raiseFault_halted hh

/-- Settles O13: below capacity, at capacity, and at capacity on a halted block. -/
theorem dataByteIsStoredVerbatim : Obligations.DataByteIsStoredVerbatim := by
  intro s b hb he hm ha
  have hd := dropsIdle_of_accepts ha
  refine ⟨rfl, fun hcap => ?_, fun hcap hh => ?_, fun hcap hh => ?_⟩ <;> simp only [exec, execData]
  · rw [append_data hb he hm hd hcap]
    rfl
  · rw [append_full hb (.inr hm) hd hcap]
    exact finish_raiseFault_running hh
  · rw [append_full hb (.inr hm) hd hcap]
    exact finish_raiseFault_halted hh

end Sys2Proof.Machine
end

section
/-!
The completion query and the frame (41_decoder.md sections 2 to 4): what `FrameComplete` answers for the declared length written
out in bytes, and the whole frame that `ToFrame` reads.
-/
open Sys2Proof.Statements

namespace Sys2Proof.Machine

/-! ### FrameComplete (R106, R107) -/

theorem frameComplete_short {s : State} (h : s.accLen < 3) : frameComplete s = .done s false := if_pos h

/-- The length compared with is the cached one, or where none is cached the one in the accumulator. -/
theorem measuredLength_eq {s : State} {d hi lo : Byte} {rest : List Byte} {n : Half} (ha : s.acc = d :: hi :: lo :: rest)
    (hn : if s.nCached = 0#16 then n.toNat = hi.toNat * 256 + lo.toNat else n = s.nCached) : measuredLength s = n := by
  unfold measuredLength
  split_ifs at hn ⊢ with h0
  · exact BitVec.eq_of_toNat_eq (by rw [ha, hn, ← be16_toNat]; rfl)
  · exact hn.symm

/-- `FrameComplete` from 3 bytes on, where the length is accepted (R106, and R107 under the policy `literal`). -/
theorem frameComplete_accepted {s : State} (h3 : 3 ≤ s.accLen)
    (hz : measuredLength s = 0#16 → s.cfg.zeroLenPolicy = .literal) :
    frameComplete s = .done { s with nCached := measuredLength s } (lengthComplete s.accLen (measuredLength s)) := by
  by_cases h0 : measuredLength s = 0#16
  · have hs : ¬ s.accLen < 3 := Nat.not_lt.2 h3
    simp only [frameComplete, if_neg hs, if_pos h0, hz h0]
    rfl
  · exact frameComplete_measured h3 h0

theorem frameComplete_emit_done {s t : State} {r : Bool} (h : frameComplete s = .done t r) (e : List Event) (v : Value) :
    frameComplete (s.emit e v) = .done (t.emit e v) r := by
  rw [frameComplete_emit, h, Effect.onState_done]

theorem frameComplete_emit_ended {s t : State} {c : Option FaultCode} (h : frameComplete s = .ended t c) (e : List Event)
    (v : Value) : frameComplete (s.emit e v) = .ended (t.emit e v) c := by
  rw [frameComplete_emit, h, Effect.onState_ended]

/-- `FrameComplete` as an instruction, where it completes. -/
theorem exec_frameComplete_done {s t : State} {r : Bool} (h : frameComplete s = .done t r) :
    exec .frameComplete s = .next (t.emit [] (.bool r)) := by
  simp only [exec, execFrameComplete, h, State.answer]

/-- The answer beside a fault is false (R107). -/
theorem exec_frameComplete_ended {s t : State} {c : Option FaultCode} (h : frameComplete s = .ended t c) :
    exec .frameComplete s = .next (t.emit (faultEvents c) (.bool false)) := by
  simp only [exec, execFrameComplete, h]

/-- Everything `FrameComplete` as an instruction can do. -/
theorem exec_frameComplete_cases {s t : State} (h : exec .frameComplete s = .next t) :
    (∃ u r, frameComplete s = .done u r ∧ t = u.emit [] (.bool r)) ∨
    (∃ u c, frameComplete s = .ended u c ∧ t = u.emit (faultEvents c) (.bool false)) := by
  cases hf : frameComplete s with
  | done u r =>
    rw [exec_frameComplete_done hf] at h
    cases h
    exact .inl ⟨u, r, rfl, rfl⟩
  | ended u c =>
    rw [exec_frameComplete_ended hf] at h
    cases h
    exact .inr ⟨u, c, rfl, rfl⟩

/-- A query that was ended with nothing raised changed nothing (R185). -/
theorem eq_of_frameComplete_ended_none {s t : State} (h : frameComplete s = .ended t none) : t = s := by
  obtain ⟨_, _, _, ⟨_, hc, _⟩ | ⟨_, _, rfl⟩⟩ := frameComplete_ended h
  · cases hc
  · rfl

/-- Settles O17: by the number of bytes; asked again, the query meets what it met before. -/
theorem frameCompleteMeasures : Obligations.FrameCompleteMeasures := by
  refine ⟨fun s h3 => ?_, fun s d hi lo rest n ha h0 hn => ?_, fun s t h he => ?_⟩
  · exact exec_frameComplete_done (frameComplete_short h3)
  · have hm := measuredLength_eq ha hn
    have hf := frameComplete_measured (s := s) (by simp [State.accLen, ha]) (hm ▸ h0)
    rw [exec_frameComplete_done hf, hm]
    simp [State.emit, lengthComplete, State.accLen, ha, beq_eq_decide]
  · obtain ⟨u, r, hf, rfl⟩ | ⟨u, c, hf, rfl⟩ := exec_frameComplete_cases h
    · rw [exec_frameComplete_done (frameComplete_emit_done (frameComplete_again hf) [] (.bool r)), emit_emit]
    · obtain rfl : c = none := faultEvents_eq_nil.1 he
      obtain rfl := eq_of_frameComplete_ended_none hf
      rw [exec_frameComplete_ended (frameComplete_emit_ended hf _ (.bool false)), emit_emit]

/-! ### A whole frame in the accumulator (R32) -/

/-- The accumulation is a delimiter, two length bytes, as many payload bytes as they declare and a checksum byte, in a state that
has measured this length or none; a payload of length 0 is accepted (R107). -/
structure HoldsFrame (s : State) (d : Byte) (p : List Byte) (ck : Byte) : Prop where
  acc : ∃ hi lo, s.acc = d :: hi :: lo :: (p ++ [ck]) ∧ p.length = hi.toNat * 256 + lo.toNat
  cached : s.nCached = 0#16 ∨ s.nCached.toNat = p.length
  accepted : p = [] → s.cfg.zeroLenPolicy = .literal

/-- The state once the length of a whole frame is cached. -/
def State.measured (s : State) (p : List Byte) : State := { s with nCached := BitVec.ofNat 16 p.length }

section
variable {s : State} {d ck : Byte} {p : List Byte}

theorem HoldsFrame.length_lt (h : HoldsFrame s d p ck) : p.length < 65536 := by
  obtain ⟨hi, lo, _, hp⟩ := h.acc
  have := hi.isLt
  have := lo.isLt
  omega

theorem HoldsFrame.toNat_length (h : HoldsFrame s d p ck) : (BitVec.ofNat 16 p.length).toNat = p.length := by
  rw [BitVec.toNat_ofNat]
  exact Nat.mod_eq_of_lt h.length_lt

theorem HoldsFrame.measuredLength (h : HoldsFrame s d p ck) : measuredLength s = BitVec.ofNat 16 p.length := by
  obtain ⟨hi, lo, ha, hp⟩ := h.acc
  have hlen := h.toNat_length
  refine measuredLength_eq ha ?_
  split_ifs with h0
  · rw [hlen, hp]
  · have hn := h.cached.resolve_left h0
    exact BitVec.eq_of_toNat_eq (hlen.trans hn.symm)

theorem HoldsFrame.frameComplete (h : HoldsFrame s d p ck) : frameComplete s = .done (s.measured p) true := by
  have hlen := h.toNat_length
  have hm := h.measuredLength
  obtain ⟨hi, lo, ha, hp⟩ := h.acc
  have hl : s.accLen = p.length + 4 := by simp [State.accLen, ha]
  have hz : Machine.measuredLength s = 0#16 → s.cfg.zeroLenPolicy = .literal := by
    intro h0
    refine h.accepted (List.eq_nil_of_length_eq_zero ?_)
    rw [← hlen, ← hm, h0]
    rfl
  rw [frameComplete_accepted (by omega) hz, hm]
  simp [lengthComplete, hl, hlen, State.measured]

theorem HoldsFrame.accFrame (h : HoldsFrame s d p ck) : accFrame (s.measured p) = ⟨d, p, ck, s.mode⟩ := by
  have hlen := h.toNat_length
  obtain ⟨hi, lo, ha, _⟩ := h.acc
  simp [Machine.accFrame, State.measured, hlen, ha, byteAt]

theorem HoldsFrame.toFrame (h : HoldsFrame s d p ck) : toFrame s = .done (s.measured p) ⟨d, p, ck, s.mode⟩ := by
  simp only [Machine.toFrame, h.frameComplete, h.accFrame]

theorem HoldsFrame.accChecksumValid (h : HoldsFrame s d p ck) (hr : s.cfg.accCheckRedecode = false) :
    accChecksumValid s.cfg s.mode s.acc = (byteSum (p ++ [ck]) == 0xFF#8) := by
  obtain ⟨hi, lo, ha, _⟩ := h.acc
  rw [Machine.accChecksumValid, accCheck_default (by simp [ha]) hr, ha]
  simp

end

/-! ### ToFrame and Reset (R108, R109) -/

/-- Settles O20: the accumulation is a whole frame. -/
theorem toFrameReadsTheAccumulator : Obligations.ToFrameReadsTheAccumulator := by
  intro s d hi lo ck p ha hp hne hn
  have hf : HoldsFrame s d p ck := ⟨⟨hi, lo, ha, hp⟩, hn, fun h => absurd h hne⟩
  simp only [exec, execToFrame, hf.toFrame]
  rfl

/-- Settles O21: the query inside answers false, or on a halted block was ended with nothing raised. -/
theorem toFrameBeforeCompletionFaults : Obligations.ToFrameBeforeCompletionFaults := by
  intro s t h he hr
  simp only [exec, execToFrame]
  obtain ⟨u, r, hf, rfl⟩ | ⟨u, c, hf, rfl⟩ := exec_frameComplete_cases h
  · obtain rfl : r = false := by simpa using hr
    have ht : toFrame s = raiseFault .invalidState u := by simp only [toFrame, hf]
    rw [ht, ← frameComplete_done_halted hf]
    exact ⟨finish_raiseFault_running, finish_raiseFault_halted⟩
  · obtain rfl : c = none := faultEvents_eq_nil.1 he
    have ht : toFrame s = .ended u none := by simp only [toFrame, hf]
    obtain ⟨_, _, _, hst⟩ := frameComplete_ended hf
    rw [ht]
    exact ⟨fun hh => absurd rfl (hst.faultEvents_ne_nil hh), fun _ => rfl⟩

/-- Settles O22: `Reset` is the three writes. -/
theorem resetClearsThreeElements : Obligations.ResetClearsThreeElements :=
  fun _ => rfl

end Sys2Proof.Machine
end

section
/-!
`Feed` (41_decoder.md section 5): the composition of the operations (R110), what its parts leave, and the last byte of a frame.
-/
open Sys2Proof.Statements

namespace Sys2Proof.Machine

/-! ### The step for a byte, by what `Append` and `FrameComplete` do -/

theorem exec_feed {b : Byte} {s t : State} (h : feedState b s = t) : exec (.feed b) s = .next t := congrArg _ h

theorem feedState_halted (b : Byte) {s : State} (h : s.halted = true) : feedState b s = s.emit [] .none := if_pos h

theorem feedState_ended {b : Byte} {s t : State} {c : Option FaultCode} (hh : s.halted = false) (h : append b s = .ended t c) :
    feedState b s = t.emit (faultEvents c) (endedValue c) := by
  simp [feedState, hh, h]

theorem feedState_done {b : Byte} {s t : State} {sof : Bool} (hh : s.halted = false) (h : append b s = .done t sof) :
    feedState b s = afterAppend t (if sof then [.newFrame] else []) := by
  simp [feedState, hh, h]

theorem afterAppend_ended {s t : State} {c : Option FaultCode} (h : frameComplete s = .ended t c) (evs : List Event) :
    afterAppend s evs = t.emit (evs ++ faultEvents c) (endedValue c) := by
  simp only [afterAppend, h]

theorem afterAppend_more {s t : State} (h : frameComplete s = .done t false) (evs : List Event) :
    afterAppend s evs = t.emit evs .none := by
  simp only [afterAppend, h]

theorem afterAppend_valid {s t : State} (h : frameComplete s = .done t true)
    (hv : accChecksumValid t.cfg t.mode t.acc = true) (evs : List Event) :
    afterAppend s evs =
      (resetDecoder t).emit (evs ++ [.frameOut (accFrame t) (parseMux t.cfg (accFrame t))]) .none := by
  simp [afterAppend, h, deliver, hv, toFrame, frameComplete_again h]

theorem afterAppend_invalid {s t : State} (h : frameComplete s = .done t true)
    (hv : accChecksumValid t.cfg t.mode t.acc = false) (evs : List Event) :
    afterAppend s evs = (resetDecoder t).emit (evs ++ [.checksumFail t.nCached (byteAt t.acc 3)]) .none := by
  simp [afterAppend, h, deliver, hv]

/-- The step for a start delimiter (R101): one byte is no complete frame. -/
theorem feedState_sof {s : State} (hh : s.halted = false) :
    feedState 0x7E#8 s =
      State.emit { s with acc := [0x7E#8], escPending := false,
                          nCached := if s.cfg.sofClearsN then 0#16 else s.nCached } [.newFrame] .none := by
  rw [feedState_done hh (append_sof s)]
  exact afterAppend_more (frameComplete_short (by simp [State.accLen])) _

/-! ### Start delimiter and idle byte (R101, R105) -/

/-- Settles O10: the first rule looks at nothing but the byte. -/
theorem startDelimiterRestarts : Obligations.StartDelimiterRestarts := by
  intro s n t
  have happ : (append 0x7E#8 s).finish .bool = .next t := by
    rw [append_sof]
    rfl
  exact ⟨happ, happ, fun hh => exec_feed (feedState_sof hh)⟩

/-- Settles O14: the discard is the same for every class but the start delimiter's, and an empty accumulator is no complete
frame. -/
theorem idleByteIsDiscarded : Obligations.IdleByteIsDiscarded := by
  intro s b hi ha hb
  have hd : s.dropsIdle = true := by simp [State.dropsIdle, hi, ha]
  have happ {c : Byte} (hc : c ≠ 0x7E#8) : (append c s).finish .bool = returns s (.bool false) := by
    rw [append_idle hc hd]
    rfl
  refine ⟨happ hb, happ hb, happ hb, happ (c := escByte) (by decide), fun hh => exec_feed ?_⟩
  rw [feedState_done hh (append_idle hb hd)]
  exact afterAppend_more (frameComplete_short (by simp [State.accLen, ha])) _

/-! ### The composition (R110) -/

theorem exec_toFrame_of_complete {s t : State} (h : frameComplete s = .done t true) :
    exec .toFrame s = .next (t.emit [] (.frame (accFrame t))) := by
  simp only [exec, execToFrame, toFrame, h]
  rfl

theorem getElem?_three_of_complete {s t : State} (h : frameComplete s = .done t true) :
    t.acc[3]? = some (byteAt t.acc 3) := by
  obtain ⟨rfl, hl⟩ := frameComplete_true h
  have h4 : 3 < s.acc.length := by
    unfold State.accLen at hl
    omega
  simp [byteAt, List.getElem?_eq_getElem h4]

/-- A completed accumulation whose check `AccChecksumValid` answers as an instruction (R87). -/
theorem exec_accChecksumValid_of_complete {s t : State} (h : frameComplete s = .done t true) :
    exec .accChecksumValid t = returns t (.bool (accChecksumValid t.cfg t.mode t.acc)) := by
  obtain ⟨b, hb⟩ := Option.isSome_iff_exists.1 (accCheck_complete h)
  rw [exec_accChecksumValid_of_some hb, accChecksumValid, hb]
  cases b <;> rfl

/-- Settles O24: `Append` completes or is ended, and so does the query; a complete frame is delivered or dropped by its check. The
outputs of the single operations do not matter to the ones that follow. -/
theorem feedComposesTheOperations : Obligations.FeedComposesTheOperations := by
  refine ⟨fun s b hh => exec_feed (feedState_halted b hh), fun s t b hh ha => ?_⟩
  obtain ⟨t, sof, happ, rfl⟩ | ⟨t, c, happ, rfl⟩ := finish_next (e := append b s) ha
  · have hfeed : exec (.feed b) s = .next (afterAppend (t.emit [] (.bool sof)) (if sof then [.newFrame] else [])) := by
      rw [afterAppend_emit]
      exact exec_feed (feedState_done hh happ)
    have hrun : (t.emit [] (.bool sof)).halted = false := (append_done_halted happ).trans hh
    refine ⟨fun he => absurd rfl he, fun _ u hu => ?_⟩
    simp only [emit_ret, Value.bool.injEq, hfeed]
    generalize (if sof = true then [Event.newFrame] else []) = pre
    obtain ⟨u, r, hf, rfl⟩ | ⟨u, c, hf, rfl⟩ := exec_frameComplete_cases hu
    · cases r with
      | false =>
        rw [afterAppend_more hf]
        exact ⟨fun he => absurd rfl he, fun _ _ => rfl, fun _ hr => by simp at hr⟩
      | true =>
        have hc := frameComplete_emit_done hf [] (.bool true)
        refine ⟨fun he => absurd rfl he, fun _ hr => by simp at hr, fun _ _ v hv => ?_⟩
        rw [exec_accChecksumValid_of_complete hc] at hv
        cases hv
        have hframe := exec_toFrame_of_complete (frameComplete_again hc)
        refine ⟨fun hbad => ⟨byteAt u.acc 3, getElem?_three_of_complete hc, ?_⟩, fun hok =>
          ⟨_, accFrame u, _, parseMux u.cfg (accFrame u), hframe, rfl, rfl, rfl, ?_⟩⟩
        · rw [afterAppend_invalid hf (by simpa using hbad)]
          rfl
        · rw [afterAppend_valid hf (by simpa using hok)]
          rfl
    · obtain ⟨_, _, _, hst⟩ := frameComplete_ended hf
      have hne : faultEvents c ≠ [] := hst.faultEvents_ne_nil hrun
      rw [afterAppend_ended hf]
      exact ⟨fun _ => ⟨endedValue c, rfl⟩, fun he => absurd he hne, fun he => absurd he hne⟩
  · obtain ⟨_, _, _, hst⟩ := append_ended happ
    exact ⟨fun _ => exec_feed (feedState_ended hh happ), fun he => absurd he (hst.faultEvents_ne_nil hh)⟩

/-! ### The last byte of a frame (R107, R110, R172) -/

/-- A whole frame with a right checksum is delivered. -/
theorem HoldsFrame.delivers {s : State} {d ck : Byte} {p : List Byte} (h : HoldsFrame s d p ck)
    (hr : s.cfg.accCheckRedecode = false) (hsum : byteSum (p ++ [ck]) = 0xFF#8) (evs : List Event) :
    afterAppend s evs = (resetDecoder s).emit
      (evs ++ [.frameOut ⟨d, p, ck, s.mode⟩ (parseMux s.cfg ⟨d, p, ck, s.mode⟩)]) .none := by
  have hv : Machine.accChecksumValid s.cfg s.mode s.acc = true := (h.accChecksumValid hr).trans (beq_iff_eq.2 hsum)
  rw [afterAppend_valid h.frameComplete hv, h.accFrame]
  rfl

/-- A whole frame with a wrong checksum is dropped. -/
theorem HoldsFrame.drops {s : State} {d ck : Byte} {p : List Byte} (h : HoldsFrame s d p ck)
    (hr : s.cfg.accCheckRedecode = false) (hsum : byteSum (p ++ [ck]) ≠ 0xFF#8) (evs : List Event) :
    afterAppend s evs = (resetDecoder s).emit
      (evs ++ [.checksumFail (BitVec.ofNat 16 p.length) (byteAt (p ++ [ck]) 0)]) .none := by
  have hv : Machine.accChecksumValid s.cfg s.mode s.acc = false := (h.accChecksumValid hr).trans (beq_eq_false_iff_ne.2 hsum)
  obtain ⟨hi, lo, ha, _⟩ := h.acc
  rw [afterAppend_invalid h.frameComplete hv]
  simp [State.measured, ha, resetDecoder]

/-- A byte that is stored as it is, then the completion query. -/
theorem feedState_data {b : Byte} {s : State} (hh : s.halted = false) (hb : b ≠ 0x7E#8) (he : s.escPending = false)
    (hm : b ≠ 0x7D#8 ∨ s.mode = false) (hne : s.acc ≠ []) (hcap : s.accLen ≠ s.cfg.accCap) :
    feedState b s = afterAppend (storeByte b s) [] :=
  feedState_done hh (append_data hb he hm (dropsIdle_of_accepts (.inr hne)) hcap)

/-- Settles O25: the stored byte makes the accumulation a whole frame. -/
theorem lastByteDeliversOrDrops : Obligations.LastByteDeliversOrDrops := by
  intro s d hi lo tag ck q hh ha hlen hn he hck hm hcap hr done
  have hf : HoldsFrame (storeByte ck s) d (tag :: q) ck :=
    ⟨⟨hi, lo, by simp [ha], by simpa using hlen⟩, by simpa using hn, by simp⟩
  have hfeed := feedState_data hh hck he hm (by simp [ha]) hcap
  have hsum : byteSum (tag :: q ++ [ck]) = 0xFF#8 ↔ (natSum (tag :: q) + ck.toNat) % 256 = 255 := by
    rw [← beq_iff_eq, byteSum_beq_eq_natSum, decide_eq_true_eq]
    simp [natSum, Nat.add_assoc]
  have hdone (ev : Event) : (resetDecoder (storeByte ck s)).emit ([] ++ [ev]) .none = done ev := by
    simp [done, resetDecoder, storeByte, State.emit, he]
  refine ⟨fun hok => ⟨_, parseMux s.cfg _, exec_parseMux rfl, rfl, exec_feed ?_⟩, fun hbad => exec_feed ?_⟩
  · rw [hfeed, hf.delivers hr (hsum.2 hok), hdone]
    rfl
  · rw [hfeed, hf.drops hr (fun h => hbad (hsum.1 h)), hdone]
    rfl

/-- Settles O18: the query meets a length of 0 in every case, and under the policy `literal` the fourth byte makes a whole frame
with no payload. -/
theorem zeroLengthFollowsThePolicy : Obligations.ZeroLengthFollowsThePolicy := by
  refine ⟨fun s d rest ha hn => ?_, fun s d cs hp hh hn he ha hr hcap hcs hm => ?_⟩
  · have h3 : 3 ≤ s.accLen := by simp [State.accLen, ha]
    have h0 : measuredLength s = 0#16 := measuredLength_eq ha (by simp [hn])
    refine ⟨fun hp hh => ?_, fun hp hh => ?_, fun hp => ?_⟩
    · exact exec_frameComplete_ended ((frameComplete_zero h3 h0 hp).trans (raiseFault_running hh))
    · exact exec_frameComplete_ended ((frameComplete_zero h3 h0 hp).trans (raiseFault_halted hh))
    · rw [exec_frameComplete_done (frameComplete_accepted h3 fun _ => hp), h0, setCached_of_measured_zero h0]
      simp [State.emit, returns, lengthComplete, State.accLen, ha, beq_eq_decide]
  · have hf : HoldsFrame (storeByte cs s) d [] cs := ⟨⟨0#8, 0#8, by simp [ha], rfl⟩, .inl hn, fun _ => hp⟩
    have hfeed := feedState_data hh hcs he hm (by simp [ha]) (by simpa [State.accLen, ha] using hcap.symm)
    have hsum : byteSum ([] ++ [cs]) = cs := by simp [byteSum]
    refine exec_feed (hfeed.trans ?_)
    split_ifs with hff
    · rw [hf.delivers hr (hsum.trans hff)]
      simp [resetDecoder, storeByte, State.emit, he, hn, parseMux]
    · rw [hf.drops hr (fun h => hff (hsum.symm.trans h))]
      simp [resetDecoder, storeByte, State.emit, he, hn]

end Sys2Proof.Machine
end

section
/-!
What a step reports (R113, R116, R182, R185): at most one event, and on a halted block neither a fault nor a change of the fault
bits.
-/
open Sys2Proof.Statements

namespace Sys2Proof.Machine

/-! ### The decoder operations on a halted block (R185) -/

/-- The fault an operation raised. -/
def Effect.raised {α : Type} : Effect α → Option FaultCode
  | .done _ _ => none
  | .ended _ c => c

/-- An operation that on a halted block raises nothing and leaves the fault bits as they were. -/
def Effect.QuietWhenHalted {α : Type} (s : State) (e : Effect α) : Prop :=
  s.halted = true → e.state.fault = s.fault ∧ e.raised = none

theorem quiet_of_done {α : Type} {s t : State} (a : α) (h : t.fault = s.fault) : (Effect.done t a).QuietWhenHalted s :=
  fun _ => ⟨h, rfl⟩

/-- A fault's cause met by a block that has the fault bits of `s`. -/
theorem Stopped.quiet {α : Type} {c : FaultCode} {s t u : State} {r : Option FaultCode} (h : Stopped c u t r)
    (hu : u.fault = s.fault) : (Effect.ended t r : Effect α).QuietWhenHalted s := by
  intro hh
  obtain ⟨hrun, _⟩ | ⟨_, rfl, rfl⟩ := h
  · rw [State.halted, hu] at hrun
    exact absurd (hrun.symm.trans hh) (by decide)
  · exact ⟨hu, rfl⟩

theorem append_quiet (b : Byte) (s : State) : (append b s).QuietWhenHalted s := by
  cases h : append b s with
  | done t sof => exact quiet_of_done sof (append_done_fault h)
  | ended t c =>
    obtain ⟨_, _, _, hs⟩ := append_ended h
    exact hs.quiet rfl

theorem appendPair_quiet (a b : Byte) (s : State) : (appendPair a b s).QuietWhenHalted s := by
  have ha := append_quiet a s
  unfold appendPair
  cases h : append a s with
  | done t sof =>
    have hb := append_quiet b t
    rwa [Effect.QuietWhenHalted, append_done_halted h, append_done_fault h] at hb
  | ended t c => rwa [h] at ha

theorem frameComplete_quiet (s : State) : (frameComplete s).QuietWhenHalted s := by
  cases h : frameComplete s with
  | done t r => exact quiet_of_done r (frameComplete_done_fault h)
  | ended t c =>
    obtain ⟨_, _, _, hs⟩ := frameComplete_ended h
    exact hs.quiet rfl

theorem toFrame_quiet (s : State) : (toFrame s).QuietWhenHalted s := by
  have hq := frameComplete_quiet s
  cases h : toFrame s with
  | done t f =>
    obtain ⟨hf, _⟩ := toFrame_done h
    exact quiet_of_done f (frameComplete_done_fault hf)
  | ended t c =>
    obtain hf | ⟨u, hf, hs⟩ := toFrame_ended h
    · rwa [hf] at hq
    · exact hs.quiet (frameComplete_done_fault hf)

/-! ### The instructions -/

/-- From `s` to `t` at most one event was emitted, and where `s` was halted no fault was raised. -/
structure Reports (s t : State) : Prop where
  events : t.events.length ≤ 1
  halted : s.halted = true → t.fault = s.fault ∧ ∀ c, .fault c ∉ t.events

theorem reports_of_silent {s t : State} (hf : t.fault = s.fault) (he : t.events = []) : Reports s t :=
  ⟨by simp [he], fun _ => ⟨hf, by simp [he]⟩⟩

theorem Effect.QuietWhenHalted.reports {α : Type} {e : Effect α} {s : State} (h : e.QuietWhenHalted s) (v : Value) :
    Reports s (e.state.emit (faultEvents e.raised) v) where
  events := by cases e.raised <;> simp [faultEvents]
  halted := fun hh => by
    obtain ⟨hf, hr⟩ := h hh
    exact ⟨hf, by simp [hr, faultEvents]⟩

theorem finish_reports {α : Type} {e : Effect α} {v : α → Value} {s t : State} (he : e.QuietWhenHalted s)
    (h : e.finish v = .next t) : Reports s t := by
  obtain ⟨u, a, rfl, rfl⟩ | ⟨u, c, rfl, rfl⟩ := finish_next h
  · exact he.reports _
  · exact he.reports _

theorem exec_frameComplete_reports {s t : State} (h : exec .frameComplete s = .next t) : Reports s t := by
  have hq := frameComplete_quiet s
  obtain ⟨u, r, hf, rfl⟩ | ⟨u, c, hf, rfl⟩ := exec_frameComplete_cases h <;> rw [hf] at hq <;> exact hq.reports _

theorem exec_accChecksumValid_reports {s t : State} (h : exec .accChecksumValid s = .next t) : Reports s t := by
  cases hc : accCheck s.cfg s.mode s.acc with
  | some b =>
    rw [exec_accChecksumValid_of_some hc] at h
    cases h
    exact reports_of_silent rfl rfl
  | none =>
    obtain ⟨v, hv⟩ := exec_accChecksumValid_of_none hc
    rw [hv] at h
    cases h
    exact reports_of_silent rfl rfl

theorem afterAppend_length_le (s : State) : (afterAppend s []).events.length ≤ 1 := by
  obtain ⟨t, _, he⟩ | ⟨t, c, _, he⟩ | ⟨t, _, _, he⟩ | ⟨t, _, _, he⟩ := afterAppend_cases s [] <;> rw [he]
  · simp
  · cases c <;> simp [faultEvents]
  · simp
  · simp

/-- The step in which a frame begins emits `NewFrame` alone, and in any other step nothing stands before what the completion
query leads to. -/
theorem feedState_reports (b : Byte) (s : State) : Reports s (feedState b s) := by
  obtain ⟨_, he⟩ | ⟨_, t, c, ha, he⟩ | ⟨hh, t, sof, ha, he⟩ := feedState_cases b s
  · rw [he]
    exact reports_of_silent rfl rfl
  · have hq := append_quiet b s
    rw [ha] at hq
    rw [he]
    exact hq.reports _
  · refine ⟨?_, fun hh' => absurd (hh.symm.trans hh') (by decide)⟩
    obtain ⟨rfl, _⟩ | ⟨_, rfl, _⟩ | ⟨_, rfl, _⟩ | ⟨_, rfl, _⟩ | ⟨_, rfl, _⟩ := append_done ha
    · rw [feedState_sof hh]
      simp
    all_goals
      rw [he]
      exact afterAppend_length_le t

theorem exec_abort_running {s : State} (h : s.halted = false) :
    exec .abort s = .next ((resetDecoder s).emit [] .none) := by
  simp [exec, execAbort, h, State.answer]

theorem exec_abort_halted {s : State} (h : s.halted = true) : exec .abort s = returns s .none := if_pos h

theorem exec_endOfStream_running {s : State} (h : s.halted = false) :
    exec .endOfStream s = .next (s.emit [.endOfFrames] .none) := by
  simp [exec, execEndOfStream, h]

theorem exec_endOfStream_halted {s : State} (h : s.halted = true) : exec .endOfStream s = returns s .none := if_pos h

theorem exec_abort_reports {s t : State} (h : exec .abort s = .next t) : Reports s t := by
  cases hh : s.halted with
  | true =>
    rw [exec_abort_halted hh] at h
    cases h
    exact reports_of_silent rfl rfl
  | false =>
    rw [exec_abort_running hh] at h
    cases h
    exact reports_of_silent rfl rfl

theorem exec_endOfStream_reports {s t : State} (h : exec .endOfStream s = .next t) : Reports s t := by
  cases hh : s.halted with
  | true =>
    rw [exec_endOfStream_halted hh] at h
    cases h
    exact reports_of_silent rfl rfl
  | false =>
    rw [exec_endOfStream_running hh] at h
    cases h
    exact ⟨by simp, by simp⟩

/-- What every instruction but `HardReset` reports. -/
theorem exec_reports {i : Instr} {s t : State} (hi : ∀ m, i ≠ .hardReset m) (h : exec i s = .next t) : Reports s t := by
  by_cases hp : isPure i = true
  · obtain ⟨w, rfl⟩ := exec_pure_emits hp h
    exact reports_of_silent rfl rfl
  · cases i with
    | sof => exact finish_reports (append_quiet sofByte s) h
    | esc => exact finish_reports (append_quiet escByte s) h
    | escaped b | data b | append b => exact finish_reports (append_quiet b s) h
    | escSeq7E => exact finish_reports (appendPair_quiet escByte 0x5E#8 s) h
    | escSeq7D => exact finish_reports (appendPair_quiet escByte 0x5D#8 s) h
    | escSeq11 => exact finish_reports (appendPair_quiet escByte 0x31#8 s) h
    | escSeq13 => exact finish_reports (appendPair_quiet escByte 0x33#8 s) h
    | accChecksumValid => exact exec_accChecksumValid_reports h
    | frameComplete => exact exec_frameComplete_reports h
    | toFrame => exact finish_reports (toFrame_quiet s) h
    | reset =>
      obtain rfl := answer_next.1 h
      exact reports_of_silent rfl rfl
    | feed b =>
      cases h
      exact feedState_reports b s
    | abort => exact exec_abort_reports h
    | endOfStream => exact exec_endOfStream_reports h
    | hardReset m => exact absurd rfl (hi m)
    | _ => exact absurd rfl hp

theorem exec_emits_at_most_one {i : Instr} {s t : State} (h : exec i s = .next t) : t.events.length ≤ 1 := by
  by_cases hi : ∃ m, i = .hardReset m
  · obtain ⟨m, rfl⟩ := hi
    rw [exec_hardReset] at h
    cases h
    exact Nat.zero_le 1
  · exact (exec_reports (fun m hm => hi ⟨m, hm⟩) h).events

/-- Settles O31: a step emits one event at most. -/
theorem stepEmitsAtMostTwoEvents : Obligations.StepEmitsAtMostTwoEvents := by
  intro i s t h
  have h1 := exec_emits_at_most_one h
  refine ⟨h1.trans (by decide), (List.length_filter_le _ _).trans h1, fun f r ⟨hn, hf⟩ => ?_⟩
  obtain h0 | h1 := Nat.le_one_iff_eq_zero_or_eq_one.1 h1
  · rw [List.length_eq_zero_iff.1 h0] at hn
    exact absurd hn (by simp)
  · obtain ⟨e, he⟩ := List.length_eq_one_iff.1 h1
    rw [he, List.mem_singleton] at hn hf
    exact Event.noConfusion (hn.trans hf.symm)

/-! ### The halted block and the input events (R111, R112, R116) -/

/-- Settles O26: the three events look at the halt first, and no other instruction but `HardReset` reports a fault. -/
theorem haltedBlockIgnoresEvents : Obligations.HaltedBlockIgnoresEvents := by
  intro s b m hf
  have hh : s.halted = true := bne_iff_ne.2 hf
  exact ⟨exec_feed (feedState_halted b hh), exec_abort_halted hh, exec_endOfStream_halted hh,
    ⟨_, exec_hardReset m s, rfl⟩, fun i t hi h => (exec_reports hi h).halted hh⟩

/-- Settles O27: on a block that is not halted. -/
theorem abortAndEndOfStream : Obligations.AbortAndEndOfStream := by
  intro s hf
  have hh : s.halted = false := bne_eq_false_iff_eq.2 hf
  exact ⟨exec_abort_running hh, exec_endOfStream_running hh⟩

end Sys2Proof.Machine
end

section
/-!
Runs of bytes (R113, R114): the states and events of feeding a sequence of bytes one after another, which neither the rest of the
input nor the outputs of an earlier step change.
-/
open Sys2Proof.Statements

namespace Sys2Proof.Machine

/-! ### Feeding a sequence of bytes -/

/-- The state after a sequence of bytes, and the events of all its steps in order. -/
def feedAll : List Byte → State → State × List Event
  | [], s => (s, [])
  | b :: bs, s => ((feedAll bs (feedState b s)).1, (feedState b s).events ++ (feedAll bs (feedState b s)).2)

theorem feedAll_append (xs ys : List Byte) (s : State) :
    feedAll (xs ++ ys) s = ((feedAll ys (feedAll xs s).1).1, (feedAll xs s).2 ++ (feedAll ys (feedAll xs s).1).2) := by
  induction xs generalizing s with
  | nil => rfl
  | cons b bs ih => simp [feedAll, ih, List.append_assoc]

/-- What is pending behind a byte only stays pending. -/
theorem feedState_withInput (b : Byte) (s : State) (i : List Input) :
    feedState b { s with input := i } = { feedState b s with input := i } :=
  feedState_input b s i s.events s.ret

/-- The outputs of an earlier step do not matter. -/
theorem feedState_emit (b : Byte) (s : State) (e : List Event) (v : Value) : feedState b (s.emit e v) = feedState b s := by
  obtain ⟨_, _, hin, _⟩ := feedState_sameFrame b s
  calc feedState b (s.emit e v)
      = { feedState b s with input := s.input } := feedState_input b s s.input e v
    _ = feedState b s := by rw [← hin]

theorem feedAll_emit {bs : List Byte} (h : bs ≠ []) (s : State) (e : List Event) (v : Value) :
    feedAll bs (s.emit e v) = feedAll bs s := by
  cases bs with
  | nil => exact absurd rfl h
  | cons b bs => simp only [feedAll, feedState_emit]

theorem trace_succ {s t : State} (h : step s = .next t) (n : Nat) :
    trace (n + 1) s = (trace n t).map fun r => (r.1, t.events ++ r.2) := by
  simp only [trace, h]

/-- A run over pending bytes feeds them one by one (R39). -/
theorem trace_feed (xs : List Byte) (rest : List Input) (s : State) :
    trace xs.length { s with input := xs.map .byte ++ rest } =
      some ({ (feedAll xs s).1 with input := rest }, (feedAll xs s).2) := by
  induction xs generalizing s with
  | nil => rfl
  | cons b bs ih =>
    have hstep : step { s with input := (b :: bs).map .byte ++ rest } =
        .next { feedState b s with input := bs.map .byte ++ rest } := by
      rw [step_of_input_byte (rest := bs.map .byte ++ rest) rfl]
      exact congrArg _ (feedState_withInput b s _)
    rw [List.length_cons, trace_succ hstep, ih]
    rfl

/-! ### Deliveries (R114) -/

/-- Waiting takes the last outputs away and nothing else (notes/assumptions/20.md). -/
theorem trace_wait (k : Nat) {s : State} (h : s.input = []) : ∃ e v, trace k s = some (s.emit e v, []) := by
  induction k generalizing s with
  | zero => exact ⟨s.events, s.ret, rfl⟩
  | succ k ih =>
    obtain ⟨e, v, ht⟩ := ih (s := s.emit [] .none) h
    refine ⟨e, v, ?_⟩
    simp only [trace, step_of_input_nil h]
    exact congrArg (Option.map _) ht

theorem feedAll_input (bs : List Byte) (s : State) : (feedAll bs s).1.input = s.input := by
  induction bs generalizing s with
  | nil => rfl
  | cons b bs ih =>
    obtain ⟨_, _, hin, _⟩ := feedState_sameFrame b s
    exact (ih _).trans hin

/-- A run over the bytes of one delivery. -/
theorem trace_delivery (bs : List Byte) {s : State} (h : s.input = []) :
    trace bs.length (s.withInput (bs.map .byte)) = some (feedAll bs s) := by
  have hin := (feedAll_input bs s).trans h
  have hs : s.withInput (bs.map .byte) = { s with input := bs.map .byte ++ [] } := by simp [State.withInput, h]
  rw [hs, trace_feed, ← hin]

/-- Settles O37: the bytes alone determine a run, and the wait between two parts only takes outputs away. -/
theorem deliveriesDoNotMatter : Obligations.DeliveriesDoNotMatter := by
  intro s xs ys k hs hys
  have hin := (feedAll_input xs s).trans hs
  obtain ⟨e, v, hw⟩ := trace_wait k hin
  rw [← List.length_append, trace_delivery (xs ++ ys) hs, trace_delivery xs hs, Option.bind_some, hw, Option.bind_some,
    trace_delivery ys (s := (feedAll xs s).1.emit e v) hin, feedAll_emit hys, feedAll_append]
  simp

end Sys2Proof.Machine
end

section
/-!
Encode, then decode (R117): the wire bytes of a logical payload, fed to a decoder in the reset state, deliver that payload. After
each logical byte but the last the block holds the bytes so far and has been asked whether they are complete.
-/
open Sys2Proof.Statements

namespace Sys2Proof.Machine

/-! ### One logical byte on the wire -/

/-- A running block with a frame begun, no escape pending, and the completion query asked and answered false. -/
structure Awaits (m : Bool) (s : State) : Prop where
  mode : s.mode = m
  running : s.halted = false
  clear : s.escPending = false
  begun : s.acc ≠ []
  asked : frameComplete s = .done s false

/-- The pending escape is nothing to the completion query. -/
theorem frameComplete_escPending {s : State} (h : frameComplete s = .done s false) (e : Bool) :
    frameComplete { s with escPending := e } = .done { s with escPending := e } false := by
  obtain ⟨h3, _, _⟩ | ⟨h3, hs, hr, hz⟩ := frameComplete_done h
  · exact frameComplete_short h3
  · have hn : measuredLength s = s.nCached := (congrArg State.nCached hs).symm
    have hst : { s with escPending := e, nCached := measuredLength s } = { s with escPending := e } := by rw [hn]
    exact (frameComplete_accepted (s := { s with escPending := e }) h3 hz).trans (congrArg₂ Effect.done hst hr.symm)

theorem Awaits.feedState_marker {s : State} (h : Awaits true s) :
    feedState 0x7D#8 s = State.emit { s with escPending := true } [] .none := by
  rw [feedState_done h.running (append_marker h.mode h.clear (dropsIdle_of_accepts (.inr h.begun)))]
  exact afterAppend_more (frameComplete_escPending h.asked true) []

theorem Awaits.feedState_after_marker {s : State} {b : Byte} (h : Awaits true s) (hb : flipBit5 b ≠ 0x7E#8)
    (hcap : s.accLen ≠ s.cfg.accCap) :
    feedState (flipBit5 b) { s with escPending := true } = afterAppend (storeByte b s) [] := by
  have hd : State.dropsIdle { s with escPending := true } = false := dropsIdle_of_accepts (.inr h.begun)
  have ha := append_after_marker (s := { s with escPending := true }) hb rfl hd hcap
  have hst : { storeByte (flipBit5 (flipBit5 b)) { s with escPending := true } with escPending := false } = storeByte b s := by
    simp [storeByte, ← h.clear]
  rw [hst] at ha
  exact feedState_done (s := { s with escPending := true }) h.running ha

/-- The wire form of a logical byte stores that byte, and the completion query follows. -/
theorem Awaits.feedAll_escapeByte {m : Bool} {s : State} {b : Byte} (h : Awaits m s) (hb : m = false → b ≠ 0x7E#8)
    (hcap : s.accLen ≠ s.cfg.accCap) :
    feedAll (escapeByte m b) s = (afterAppend (storeByte b s) [], (afterAppend (storeByte b s) []).events) := by
  obtain ⟨he, hplain⟩ | ⟨rfl, _, he, hflip⟩ := escapeByte_cases m b <;> rw [he]
  · have hsof : b ≠ 0x7E#8 := by
      cases m with
      | false => exact hb rfl
      | true => exact (hplain rfl).1
    have hesc : b ≠ 0x7D#8 ∨ s.mode = false := by
      cases m with
      | false => exact .inr h.mode
      | true => exact .inl (hplain rfl).2
    simp [feedAll, feedState_data h.running hsof h.clear hesc h.begun hcap]
  · simp [feedAll, h.feedState_marker, feedState_emit, h.feedState_after_marker hflip hcap]

/-! ### The bytes of a frame before its checksum -/

/-- The logical bytes between the delimiter and the checksum (R50). -/
def logicalBody (p : List Byte) : List Byte := hiByte p.length :: loByte p.length :: p

/-- The block once the delimiter and the logical bytes `l` of the frame of `p` have arrived. -/
def receiving (p l : List Byte) (s : State) : State :=
  { s with acc := 0x7E#8 :: l, escPending := false,
           nCached := if l.length < 2 then 0#16 else BitVec.ofNat 16 p.length, events := [], ret := .none }

/-- The event of the last byte: the frame of `p` and its result. -/
def deliveryOf (m : Bool) (p : List Byte) (s : State) : Event :=
  .frameOut ⟨0x7E#8, p, payloadChecksum p, m⟩ (parseMux s.cfg ⟨0x7E#8, p, payloadChecksum p, m⟩)

/-- The premises of R117: a payload that a frame can declare, and a decoder in the reset state that has room for the frame, does
not decode twice and, in unescaped mode, meets no second delimiter (C2). -/
structure Conforms (m : Bool) (p : List Byte) (s : State) : Prop where
  fresh : fresh m s
  nonempty : 1 ≤ p.length
  declarable : p.length ≤ 65535
  room : p.length + 4 ≤ s.cfg.accCap
  once : s.cfg.accCheckRedecode = false
  noDelimiter : m = false → 0x7E#8 ∉ logicalBody p ++ [payloadChecksum p]

section
variable {m : Bool} {p l r : List Byte} {s t : State} {b : Byte}

theorem logicalBody_declares (h : p.length ≤ 65535) :
    p.length = (hiByte p.length).toNat * 256 + (loByte p.length).toNat := by
  simp only [hiByte, loByte, BitVec.toNat_ofNat]
  omega

theorem escapeAll_cons (m : Bool) (b : Byte) (l : List Byte) : escapeAll m (b :: l) = escapeByte m b ++ escapeAll m l := rfl

theorem escapeAll_false (l : List Byte) : escapeAll false l = l := by
  simp [escapeAll, funext escapeByte_false]

theorem Conforms.toNat_length (hc : Conforms m p s) : (BitVec.ofNat 16 p.length).toNat = p.length := by
  rw [BitVec.toNat_ofNat]
  exact Nat.mod_eq_of_lt (Nat.lt_succ_of_le hc.declarable)

theorem receiving_cached (p l : List Byte) (s : State) :
    (receiving p l s).nCached = 0#16 ∨ (2 ≤ l.length ∧ (receiving p l s).nCached = BitVec.ofNat 16 p.length) := by
  by_cases h2 : l.length < 2
  · exact .inl (if_pos h2)
  · exact .inr ⟨Nat.not_lt.1 h2, if_neg h2⟩

/-- While bytes of the body are to come the query caches the length, once it is there, and answers false. -/
theorem Conforms.frameComplete_of_prefix (hc : Conforms m p s) (hl : l <+: logicalBody p) (ha : t.acc = 0x7E#8 :: l)
    (hn : t.nCached = 0#16 ∨ (2 ≤ l.length ∧ t.nCached = BitVec.ofNat 16 p.length)) :
    frameComplete t = .done { t with nCached := if l.length < 2 then 0#16 else BitVec.ofNat 16 p.length } false := by
  have hdecl := logicalBody_declares hc.declarable
  have hlen := hc.toNat_length
  by_cases h2 : l.length < 2
  · have h0 : t.nCached = 0#16 := hn.resolve_right fun h => absurd h.1 (Nat.not_le.2 h2)
    rw [if_pos h2, ← h0]
    exact frameComplete_short (by simp only [State.accLen, ha, List.length_cons]; omega)
  · obtain ⟨x, y, q, rfl⟩ : ∃ x y q, l = x :: y :: q := by
      match l, Nat.not_lt.1 h2 with
      | x :: y :: q, _ => exact ⟨x, y, q, rfl⟩
    obtain ⟨rfl, rfl, hq⟩ : x = hiByte p.length ∧ y = loByte p.length ∧ q <+: p := by
      simpa [logicalBody, List.cons_prefix_cons] using hl
    have hm : measuredLength t = BitVec.ofNat 16 p.length := by
      refine measuredLength_eq ha ?_
      split_ifs with h0
      · rw [hlen, ← hdecl]
      · exact (hn.resolve_left h0).2.symm
    have hne : measuredLength t ≠ 0#16 := by
      intro h0
      have hp := hc.nonempty
      rw [← hlen, ← hm, h0] at hp
      exact absurd hp (by decide)
    have hle := hq.length_le
    rw [frameComplete_measured (by simp [State.accLen, ha]) hne, hm, if_neg h2]
    have hlt : (q.length + 3 == p.length + 4) = false := beq_eq_false_iff_ne.2 (by omega)
    simp [lengthComplete, State.accLen, ha, hlen, hlt]

theorem Conforms.awaits (hc : Conforms m p s) (hl : l <+: logicalBody p) : Awaits m (receiving p l s) := by
  obtain ⟨hmode, _, _, _, hfault⟩ := hc.fresh
  exact ⟨hmode, bne_eq_false_iff_eq.2 hfault, rfl, by simp [receiving],
    hc.frameComplete_of_prefix hl rfl (receiving_cached p l s)⟩

theorem Conforms.room_of_prefix (hc : Conforms m p s) (hl : l <+: logicalBody p) :
    (receiving p l s).accLen ≠ (receiving p l s).cfg.accCap := by
  have hle := hl.length_le
  have hroom := hc.room
  simp only [logicalBody, List.length_cons] at hle
  simp only [receiving, State.accLen, List.length_cons]
  omega

theorem Conforms.feedAll_byte (hc : Conforms m p s) (hl : l ++ [b] <+: logicalBody p) :
    feedAll (escapeByte m b) (receiving p l s) = (receiving p (l ++ [b]) s, []) := by
  have hl' : l <+: logicalBody p := (List.prefix_append l [b]).trans hl
  have hb : m = false → b ≠ 0x7E#8 := by
    rintro hm rfl
    exact hc.noDelimiter hm (List.mem_append_left _ (hl.subset (by simp)))
  have hn := (receiving_cached p l s).imp_right (And.imp_left fun h2 => h2.trans (List.prefix_append l [b]).length_le)
  have hf := hc.frameComplete_of_prefix (t := storeByte b (receiving p l s)) hl rfl hn
  rw [(hc.awaits hl').feedAll_escapeByte hb (hc.room_of_prefix hl'), afterAppend_more hf]
  rfl

theorem Conforms.feedAll_body (hc : Conforms m p s) (hl : l ++ r <+: logicalBody p) :
    feedAll (escapeAll m r) (receiving p l s) = (receiving p (l ++ r) s, []) := by
  induction r generalizing l with
  | nil => simp [escapeAll, feedAll]
  | cons b r ih =>
    rw [List.append_cons] at hl ⊢
    have hb := hc.feedAll_byte ((List.prefix_append _ r).trans hl)
    have hr := ih hl
    rw [escapeAll_cons, feedAll_append, hb, hr]
    rfl

/-! ### The whole frame -/

/-- The frame is delivered with its last logical byte. -/
theorem Conforms.feedAll_checksum (hc : Conforms m p s) :
    feedAll (escapeByte m (payloadChecksum p)) (receiving p (logicalBody p) s) =
      ({ s with events := [deliveryOf m p s], ret := .none }, [deliveryOf m p s]) := by
  obtain ⟨hmode, hacc, hesc, hn, _⟩ := hc.fresh
  have hb : m = false → payloadChecksum p ≠ 0x7E#8 := fun hm h => hc.noDelimiter hm (by simp [h])
  have hdecl := logicalBody_declares hc.declarable
  have hf : HoldsFrame (storeByte (payloadChecksum p) (receiving p (logicalBody p) s)) 0x7E#8 p (payloadChecksum p) := by
    refine ⟨⟨_, _, rfl, hdecl⟩, (receiving_cached p (logicalBody p) s).imp_right fun h => ?_, fun h => ?_⟩
    · rw [storeByte_nCached, h.2, hc.toNat_length]
    · exact absurd hc.nonempty (by simp [h])
  rw [(hc.awaits List.prefix_rfl).feedAll_escapeByte hb (hc.room_of_prefix List.prefix_rfl),
    hf.delivers hc.once (byteSum_payloadChecksum p)]
  simp [deliveryOf, resetDecoder, receiving, storeByte, State.emit, hmode, ← hacc, ← hesc, ← hn]

/-- The delimiter begins the frame. -/
theorem Conforms.feedState_delimiter (hc : Conforms m p s) :
    feedState 0x7E#8 s = (receiving p [] s).emit [.newFrame] .none := by
  obtain ⟨_, _, _, hn, hfault⟩ := hc.fresh
  rw [feedState_sof (bne_eq_false_iff_eq.2 hfault), hn, ite_self]
  rfl

theorem escapeByte_ne_nil (m : Bool) (b : Byte) : escapeByte m b ≠ [] := by
  unfold escapeByte
  split_ifs <;> simp

theorem checksumSpec_eq (p : List Byte) : checksumSpec p = payloadChecksum p := (complement_byteSum_eq_natSum p).symm

theorem wireSpec_eq (p : List Byte) (m : Bool) :
    wireSpec p m = 0x7E#8 :: (escapeAll m (logicalBody p) ++ escapeByte m (payloadChecksum p)) := by
  simp [wireSpec, checksumSpec_eq, escapeAll_eq_flatMap, escapeByte_eq_escapeSpec, logicalBody, hiByte, loByte]

theorem Conforms.feedAll_wire (hc : Conforms m p s) :
    feedAll (wireSpec p m) s =
      ({ s with events := [deliveryOf m p s], ret := .none }, [.newFrame, deliveryOf m p s]) := by
  have hne : escapeAll m (logicalBody p) ++ escapeByte m (payloadChecksum p) ≠ [] :=
    List.append_ne_nil_of_right_ne_nil _ (escapeByte_ne_nil m _)
  rw [wireSpec_eq, feedAll, hc.feedState_delimiter, feedAll_emit hne, feedAll_append,
    hc.feedAll_body (l := []) (r := logicalBody p) List.prefix_rfl, List.nil_append, hc.feedAll_checksum]
  rfl

/-- The first step of the run. -/
theorem Conforms.trace_one (hc : Conforms m p s) {rest : List Input} (hin : s.input = (wireSpec p m).map .byte ++ rest) :
    ∃ t, trace 1 s = some (t, [.newFrame]) := by
  rw [wireSpec_eq] at hin
  have ht := trace_succ (step_of_input_byte hin) 0
  rw [feedState_withInput, hc.feedState_delimiter] at ht
  exact ⟨_, ht⟩

end

/-- Settles O36: the delimiter, the body and the checksum, each on the state the one before leaves. -/
theorem encodedFrameIsDelivered : Obligations.EncodedFrameIsDelivered := by
  intro s p m rest hfresh h1 hmax hroom honce hno hin
  have hc : Conforms m p s := by
    refine ⟨hfresh, h1, hmax, hroom, honce, ?_⟩
    rintro rfl
    simpa only [wireSpec_eq, List.tail_cons, escapeAll_false, escapeByte_false] using hno rfl
  refine ⟨_, parseMux s.cfg _, exec_parseMux rfl, rfl, hc.trace_one hin, ?_⟩
  have ht := trace_feed (wireSpec p m) rest s
  rw [← hin, hc.feedAll_wire] at ht
  rw [checksumSpec_eq]
  exact ht

end Sys2Proof.Machine
end

section
/-!
The parsers (42_parsers.md, R120 to R135): the checks that every row begins with, what stands at the offsets of a payload written
out byte by byte, and the two sample lists in closed form.
-/
open Sys2Proof.Statements

namespace Sys2Proof.Machine

/-! ### The checks of every row (R121, R122) -/

section
variable {tag : Byte} {nmin : Nat} {f : Frame}

theorem guarded_other_tag {t : Byte} (ht : f.payload.head? = some t) (hne : t ≠ tag) (body : ParseResult) :
    guarded tag nmin f body = .noMatch .tag := by
  obtain ⟨q, hp⟩ := List.head?_eq_some_iff.1 ht
  simp [guarded, hp, hne]

theorem guarded_short (ht : f.payload.head? = some tag) (hl : f.payload.length < nmin) (body : ParseResult) :
    guarded tag nmin f body = .noMatch .short := by
  obtain ⟨q, hp⟩ := List.head?_eq_some_iff.1 ht
  simp only [guarded, hp, if_true]
  exact if_pos hl

theorem guarded_empty (h : f.payload = []) (body : ParseResult) : guarded tag nmin f body = .noMatch .short := by
  simp [guarded, h]

end

/-- A row answers its parser's result and changes nothing. -/
theorem answer_result {r r' : ParseResult} (h : r = r') (s : State) : s.answer (.result r) = returns s (.result r') := by
  rw [h]
  rfl

/-- Settles O44: every one of the nine rows answers what `guarded` lets pass, with its own tag and minimum. -/
theorem parsersCheckTagAndLength : Obligations.ParsersCheckTagAndLength := by
  intro s f i tag nmin hrow
  obtain ⟨body, hi⟩ : ∃ body, exec i s = s.answer (.result (guarded tag nmin f body)) := by
    simp only [List.mem_cons, List.not_mem_nil, or_false, Prod.mk.injEq] at hrow
    obtain ⟨rfl, rfl, rfl⟩ | ⟨rfl, rfl, rfl⟩ | ⟨rfl, rfl, rfl⟩ | ⟨rfl, rfl, rfl⟩ | ⟨rfl, rfl, rfl⟩ | ⟨rfl, rfl, rfl⟩ |
      ⟨rfl, rfl, rfl⟩ | ⟨rfl, rfl, rfl⟩ | ⟨rfl, rfl, rfl⟩ := hrow <;> exact ⟨_, rfl⟩
  rw [hi]
  exact ⟨fun _ ht hne => answer_result (guarded_other_tag ht hne body) s,
    fun ht hl => answer_result (guarded_short ht hl body) s, fun h => answer_result (guarded_empty h body) s⟩

/-! ### Tags without a parser (R120, R133, R134) -/

theorem exec_parseMux_skip {s : State} {f : Frame} {q : List Byte} (hp : f.payload = 0xA1#8 :: q) :
    exec (.parseMux f) s = returns s (.result .skip) :=
  answer_result (by simp [parseMux, hp]) s

theorem exec_parseMux_unrecognised {s : State} {f : Frame} {tag : Byte} {q : List Byte} (hp : f.payload = tag :: q)
    (ht : tag ∉ [0x8A#8, 0x8B#8, 0x90#8, 0x92#8, 0x95#8, 0x97#8, 0xA1#8]) :
    exec (.parseMux f) s = returns s (.result (.unrecognised tag)) :=
  answer_result (by simp_all [parseMux]) s

/-- Settles O53: the multiplexer's answer for such a tag, which is also the answer of the tag's row. -/
theorem tagsWithoutParser : Obligations.TagsWithoutParser := by
  intro s f tag q hp
  have hrow {i : Instr} {v : Value} (hr : TagRow f tag i) (hm : exec (.parseMux f) s = returns s v) :
      exec i s = returns s v := (exec_parseMux_of_tagRow hp hr).symm.trans hm
  refine ⟨?_, fun ht => ?_, rfl⟩
  · rintro rfl
    exact ⟨exec_parseMux_skip hp, hrow .routeRecordSkip (exec_parseMux_skip hp)⟩
  · have hm := exec_parseMux_unrecognised (s := s) hp ht
    refine ⟨hm, ?_, ?_, fun h10 h17 => hrow (.otherTag ?_) hm⟩
    · rintro rfl
      exact hrow .txRequestInbound hm
    · rintro rfl
      exact hrow .ratRequestInbound hm
    · simp_all [listedTag]

/-! ### Packets with fixed fields (R124 to R126, R132) -/

theorem eq_be16_of_toNat {v : Half} {hi lo : Byte} (h : v.toNat = hi.toNat * 256 + lo.toNat) : v = be16 hi lo :=
  BitVec.eq_of_toNat_eq (h.trans (be16_toNat hi lo).symm)

theorem parse8A_of_payload {f : Frame} {st : Byte} {rest : List Byte} (hp : f.payload = 0x8A#8 :: st :: rest) :
    parse8A f = .modemStatus st := by
  rw [parse8A, guarded_body hp (by simp), hp]
  rfl

theorem parse8B_of_payload {f : Frame} {fid n1 n0 rc ds di : Byte} {rest : List Byte}
    (hp : f.payload = 0x8B#8 :: fid :: n1 :: n0 :: rc :: ds :: di :: rest) :
    parse8B f = .extTxStatus ⟨fid, be16 n1 n0, rc, ds, di⟩ := by
  rw [parse8B, guarded_body hp (by simp), hp]
  rfl

theorem parse90_of_payload (cfg : Config) {f : Frame} {a : Address} {n1 n0 op : Byte} {tail : List Byte}
    (hp : f.payload = 0x90#8 :: (a.toBytes ++ n1 :: n0 :: op :: tail)) :
    parse90 cfg f = .rxPacket ⟨a, be16 n1 n0, op⟩ (tail.take (tail.length - cfg.rxTailTrim)) := by
  have hlen : f.len - 12 = tail.length := by simp [Frame.len, hp, Address.toBytes]
  rw [parse90, guarded_body hp (by simp [Address.toBytes]), hlen, hp]
  rfl

theorem parse97_of_payload {f : Frame} {fid n1 n0 c0 c1 st : Byte} {a : Address} {rest : List Byte}
    (hp : f.payload = 0x97#8 :: fid :: (a.toBytes ++ n1 :: n0 :: c0 :: c1 :: st :: rest)) :
    parse97 f = .ratResponse ⟨fid, a, be16 n1 n0, c0, c1, st⟩ := by
  rw [parse97, guarded_body hp (by simp [Address.toBytes]), hp]
  rfl

/-- Settles O45: the bytes at the offsets of the two layouts. -/
theorem statusPacketFields : Obligations.StatusPacketFields := by
  refine ⟨fun s f st rest hp => answer_result (parse8A_of_payload hp) s, ?_⟩
  intro s f fid n1 n0 rc ds di net rest hp hnet
  obtain rfl := eq_be16_of_toNat hnet
  exact answer_result (parse8B_of_payload hp) s

/-- Settles O46: the shared fields, and the tail from offset 12 cut at its end. -/
theorem rxPacketFields : Obligations.RxPacketFields := by
  intro s f a n1 n0 op net tail hp hnet
  obtain rfl := eq_be16_of_toNat hnet
  exact answer_result (parse90_of_payload s.cfg hp) s

/-- Settles O52: the bytes at offsets 1 to 14. -/
theorem ratResponseFields : Obligations.RatResponseFields := by
  intro s f fid n1 n0 c0 c1 st a net rest hp hnet
  obtain rfl := eq_be16_of_toNat hnet
  exact answer_result (parse97_of_payload hp) s

/-! ### Samples (R128, R129) -/

theorem getLsbD_eq_decide {w : Nat} (x : BitVec w) (k : Nat) : x.getLsbD k = decide (x.toNat / 2 ^ k % 2 = 1) := by
  rw [← BitVec.testBit_toNat, Nat.testBit_eq_decide_div_mod_eq]

/-- The selected pins, each with its bit of the word (R128). -/
theorem digitalSamples_eq_map (mask word : Half) :
    digitalSamples mask word = ((List.range 15).filter mask.getLsbD).map fun k => (k, word.getLsbD k) := by
  rw [← List.filterMap_eq_map, List.filterMap_filter]
  rfl

/-- Settles O48: the pins are the filtered range and the levels the word's bits. -/
theorem digitalSamplesReadTheWord : Obligations.DigitalSamplesReadTheWord := by
  intro s mask word
  refine ⟨digitalSamples mask word, rfl, ?_, fun k v h => ?_⟩
  · simp only [digitalSamples_eq_map, List.map_map, Function.comp_def, List.map_id', funext (getLsbD_eq_decide mask)]
  · rw [digitalSamples_eq_map, List.mem_map] at h
    obtain ⟨j, -, hj⟩ := h
    obtain ⟨rfl, rfl⟩ := Prod.mk.inj hj
    exact getLsbD_eq_decide word j

/-- The readings of the selected channels `ks`: the j-th is the word at offset `2 * j`. -/
def readings (ks : List Nat) (bs : List Byte) : List (Nat × Half) := ks.mapIdx fun j k => (k, halfAt bs (2 * j))

theorem readings_cons (k : Nat) (ks : List Nat) (hi lo : Byte) (bs : List Byte) :
    readings (k :: ks) (hi :: lo :: bs) = (k, be16 hi lo) :: readings ks bs := by
  simp [readings, List.mapIdx_cons, halfAt, Nat.mul_add]

/-- The loop of R129: where the bytes suffice for the selected channels, it answers their readings. -/
theorem analogFrom_eq (mask : Byte) (ks : List Nat) (bs : List Byte) :
    analogFrom mask ks bs =
      if 2 * (ks.filter mask.getLsbD).length ≤ bs.length then some (readings (ks.filter mask.getLsbD) bs) else none := by
  induction ks generalizing bs with
  | nil => simp [analogFrom, readings]
  | cons k ks ih =>
    by_cases hk : mask.getLsbD k = true
    · match bs with
      | [] | [_] => simp [analogFrom, hk, Nat.mul_add]
      | hi :: lo :: rest =>
        simp only [analogFrom, hk, if_true, ih, List.filter_cons_of_pos hk, readings_cons, List.length_cons, Nat.mul_add,
          Nat.add_le_add_iff_right]
        split_ifs <;> rfl
    · simp only [analogFrom, hk, ih, List.filter_cons_of_neg hk]
      rfl

theorem channels_eq_filter (mask : Byte) : channels mask = analogChannels.filter mask.getLsbD := by
  simp only [channels, funext (getLsbD_eq_decide mask)]

theorem analogSamples_of_room {mask : Byte} {bs : List Byte} (h : 2 * (channels mask).length ≤ bs.length) :
    analogSamples mask bs = some (readings (channels mask) bs) := by
  rw [channels_eq_filter] at h ⊢
  rw [analogSamples, analogFrom_eq, if_pos h]

theorem analogSamples_short {mask : Byte} {bs : List Byte} (h : bs.length < 2 * (channels mask).length) :
    analogSamples mask bs = none := by
  rw [channels_eq_filter] at h
  rw [analogSamples, analogFrom_eq, if_neg (Nat.not_le.2 h)]

theorem exec_analogSamples_some {mask : Byte} {bs : List Byte} {l : List (Nat × Half)} (h : analogSamples mask bs = some l)
    (s : State) : exec (.analogSamples mask bs) s = returns s (.analog l) := by
  simp only [exec, execAnalogSamples, h]
  rfl

theorem exec_analogSamples_none {mask : Byte} {bs : List Byte} (h : analogSamples mask bs = none) (s : State) :
    exec (.analogSamples mask bs) s = returns s (.result (.noMatch .shortTail)) := by
  simp only [exec, execAnalogSamples, h]
  rfl

theorem map_fst_readings (ks : List Nat) (bs : List Byte) : (readings ks bs).map Prod.fst = ks := by
  simp [readings, List.mapIdx_eq_zipIdx_map, Function.comp_def]

theorem readings_value {ks : List Nat} {bs : List Byte} {j c : Nat} {v : Half} {hi lo : Byte}
    (h : (readings ks bs)[j]? = some (c, v)) (hhi : bs[2 * j]? = some hi) (hlo : bs[2 * j + 1]? = some lo) :
    v = be16 hi lo := by
  simp only [readings, List.getElem?_mapIdx, Option.map_eq_some_iff, Prod.mk.injEq] at h
  obtain ⟨_, _, _, rfl⟩ := h
  simp [halfAt, byteAt, hhi, hlo]

/-- Settles O49: by the room for the selected channels. -/
theorem analogSamplesConsumeTwoBytesEach : Obligations.AnalogSamplesConsumeTwoBytesEach := by
  intro s mask bytes
  refine ⟨fun h => exec_analogSamples_none (analogSamples_short h) s, fun h => ?_⟩
  refine ⟨_, exec_analogSamples_some (analogSamples_of_room h) s, map_fst_readings _ _, ?_⟩
  intro j hi lo c v hj hhi hlo
  rw [readings_value hj hhi hlo, be16_toNat]

end Sys2Proof.Machine
end

section
/-!
The two packets whose later fields are located by earlier ones (R127, R130), and the bounds of their loops (R135).
-/
open Sys2Proof.Statements

namespace Sys2Proof.Machine

/-! ### Receive I/O Data (R127) -/

theorem parse92Tail_some {p rest : List Byte} {g : List (Nat × Bool)} {l : List (Nat × Half)}
    (h : analogSamples (byteAt p 15) rest = some l) :
    parse92Tail p rest g = .rxIo ⟨receiveBase p, byteAt p 12, halfAt p 13, byteAt p 15, g, l⟩ := by
  simp only [parse92Tail, h]

theorem parse92Tail_none {p rest : List Byte} {g : List (Nat × Bool)} (h : analogSamples (byteAt p 15) rest = none) :
    parse92Tail p rest g = .noMatch .shortTail := by
  simp only [parse92Tail, h]

section
variable {f : Frame} {a : Address} {n1 n0 op ss d1 d0 am : Byte} {tail : List Byte}
  (hp : f.payload = 0x92#8 :: (a.toBytes ++ n1 :: n0 :: op :: ss :: d1 :: d0 :: am :: tail))
include hp

theorem parse92_without_word (hm : be16 d1 d0 = 0#16) : parse92 f = parse92Tail f.payload tail [] := by
  rw [parse92, guarded_body hp (by simp [Address.toBytes])]
  rw [hp]
  exact if_pos hm

theorem parse92_word_short (hm : be16 d1 d0 ≠ 0#16) (hl : tail.length < 2) : parse92 f = .noMatch .shortTail := by
  have hlen : f.len < 18 := by simp [Frame.len, hp, Address.toBytes]; omega
  rw [parse92, guarded_body hp (by simp [Address.toBytes]), if_pos hlen, hp]
  exact if_neg hm

theorem parse92_with_word (hm : be16 d1 d0 ≠ 0#16) {w1 w0 : Byte} {rest : List Byte} (ht : tail = w1 :: w0 :: rest) :
    parse92 f = parse92Tail f.payload rest (digitalSamples (be16 d1 d0) (be16 w1 w0)) := by
  have hlen : ¬ f.len < 18 := by simp [Frame.len, hp, ht, Address.toBytes]
  rw [parse92, guarded_body hp (by simp [Address.toBytes]), if_neg hlen, hp, ht]
  exact if_neg hm

theorem parse92Tail_of_room {rest : List Byte} {l : List (Nat × Half)} (h : analogSamples am rest = some l)
    (g : List (Nat × Bool)) :
    parse92Tail f.payload rest g = .rxIo ⟨⟨a, be16 n1 n0, op⟩, ss, be16 d1 d0, am, g, l⟩ := by
  rw [hp]
  exact parse92Tail_some h

theorem parse92Tail_short {rest : List Byte} (h : analogSamples am rest = none) (g : List (Nat × Bool)) :
    parse92Tail f.payload rest g = .noMatch .shortTail := by
  rw [hp]
  exact parse92Tail_none h

end

/-- Settles O47: the digital word is there or not by the mask, and the analog samples are read from what stands after it. -/
theorem rxIoFields : Obligations.RxIoFields := by
  intro s f a n1 n0 op ss d1 d0 am net mask tail hp hnet hmask answer
  obtain rfl := eq_be16_of_toNat hnet
  obtain rfl := eq_be16_of_toNat hmask
  refine ⟨fun hm hl => ?_, fun hm hl => ?_, fun hm hl => answer_result (parse92_word_short hp hm hl) s, ?_⟩
  · have ha := analogSamples_of_room hl
    exact ⟨_, exec_analogSamples_some ha s,
      answer_result ((parse92_without_word hp hm).trans (parse92Tail_of_room hp ha _)) s⟩
  · exact answer_result ((parse92_without_word hp hm).trans (parse92Tail_short hp (analogSamples_short hl) _)) s
  · intro hm w1 w0 word rest ht hword
    obtain rfl := eq_be16_of_toNat hword
    have hw := parse92_with_word hp hm ht
    refine ⟨fun hl => ?_, fun hl => answer_result (hw.trans (parse92Tail_short hp (analogSamples_short hl) _)) s⟩
    have ha := analogSamples_of_room hl
    exact ⟨_, _, rfl, exec_analogSamples_some ha s, answer_result (hw.trans (parse92Tail_of_room hp ha _)) s⟩

/-! ### Node Identification (R130) -/

/-- R130 after the fixed fields, by what stands behind the identifier `ident`. -/
def identified (p ident : List Byte) : List Byte → ParseResult
  | [] => .noMatch .malformed
  | t :: rest =>
    if t = 0x00#8 then
      match rest with
      | [] => .noMatch .shortTail
      | d :: _ => .nodeId ⟨receiveBase p, halfAt p 12, addressAt p 14, ident, d, deviceTypeClass d⟩
    else .noMatch .malformed

/-- The parser is its loop followed by `identified`. -/
theorem parse95_eq_identified (cfg : Config) (f : Frame) :
    parse95 cfg f = guarded 0x95#8 22 f (identified f.payload
      ((f.payload.drop 22).take (nodeIdLength (f.payload.drop 22) cfg.niMax))
      ((f.payload.drop 22).drop (nodeIdLength (f.payload.drop 22) cfg.niMax))) := by
  rw [List.drop_drop]
  rfl

theorem identified_malformed {p ident after : List Byte} (h : after.head? ≠ some 0x00#8) :
    identified p ident after = .noMatch .malformed := by
  cases after with
  | nil => rfl
  | cons t rest => exact if_neg fun ht => h (congrArg some ht)

section
variable {f : Frame} {a r : Address} {n1 n0 op m1 m0 : Byte} {tail : List Byte}
  (hp : f.payload = 0x95#8 :: (a.toBytes ++ n1 :: n0 :: op :: m1 :: m0 :: (r.toBytes ++ tail)))
include hp

theorem parse95_of_payload (cfg : Config) :
    parse95 cfg f = identified f.payload (tail.take (nodeIdLength tail cfg.niMax))
      (tail.drop (nodeIdLength tail cfg.niMax)) := by
  have htail : f.payload.drop 22 = tail := by rw [hp]; rfl
  rw [parse95_eq_identified, guarded_body hp (by simp [Address.toBytes]), htail]

theorem parse95_terminated {cfg : Config} {ident after : List Byte} (ht : tail = ident ++ 0x00#8 :: after)
    (h0 : 0x00#8 ∉ ident) (hl : ident.length ≤ cfg.niMax) :
    parse95 cfg f = identified f.payload ident (0x00#8 :: after) := by
  rw [parse95_of_payload hp, ht, nodeIdLength_terminator _ _ _ hl h0, List.take_left, List.drop_left]

theorem parse95_unterminated {cfg : Config} (h0 : 0x00#8 ∉ tail.take (cfg.niMax + 1)) :
    parse95 cfg f = .noMatch .malformed := by
  have hn : 0x00#8 ∉ tail.take cfg.niMax := fun h => h0 (List.take_subset_take_left tail (Nat.le_succ _) h)
  rw [parse95_of_payload hp, nodeIdLength_no_terminator _ _ hn]
  refine identified_malformed fun h => h0 (List.mem_of_getElem? (i := min cfg.niMax tail.length) ?_)
  rw [List.getElem?_take_of_lt (by omega), ← List.head?_drop]
  exact h

theorem identified_nodeId (ident rest : List Byte) (d : Byte) :
    identified f.payload ident (0x00#8 :: d :: rest) =
      .nodeId ⟨⟨a, be16 n1 n0, op⟩, be16 m1 m0, r, ident, d, deviceTypeClass d⟩ := by
  rw [hp]
  rfl

end

/-- Settles O50: by whether the terminator stands within the bound, and whether a byte follows it. -/
theorem nodeIdFields : Obligations.NodeIdFields := by
  intro s f a r n1 n0 op m1 m0 net rnet tail hp hnet hrnet
  obtain rfl := eq_be16_of_toNat hnet
  obtain rfl := eq_be16_of_toNat hrnet
  refine ⟨fun ident rest d ht h0 hl => ?_, fun h0 => answer_result (parse95_unterminated hp h0) s, fun ident ht h0 hl => ?_⟩
  · exact ⟨deviceTypeClass d, rfl,
      answer_result ((parse95_terminated hp ht h0 hl).trans (identified_nodeId hp ident rest d)) s⟩
  · exact answer_result (parse95_terminated hp ht h0 hl) s

/-! ### Bounds (R135) -/

/-- The bounds of R135 on a result; results without lists from loops have none. -/
def Bounded (cfg : Config) : ParseResult → Prop
  | .nodeId p => p.nodeId.length ≤ cfg.niMax ∧ 0x00#8 ∉ p.nodeId
  | .rxIo p => p.digital.length ≤ 15 ∧ p.analog.length ≤ 5
  | _ => True

theorem guarded_bounded {cfg : Config} {body : ParseResult} (hb : Bounded cfg body) (tag : Byte) (nmin : Nat)
    (f : Frame) : Bounded cfg (guarded tag nmin f body) := by
  unfold guarded
  split
  · trivial
  · split_ifs
    · trivial
    · exact hb
    · trivial

theorem parse92Tail_bounded (cfg : Config) (p rest : List Byte) {g : List (Nat × Bool)} (hg : g.length ≤ 15) :
    Bounded cfg (parse92Tail p rest g) := by
  cases h : analogSamples (byteAt p 15) rest with
  | none =>
    rw [parse92Tail_none h]
    trivial
  | some l =>
    rw [parse92Tail_some h]
    exact ⟨hg, analogFrom_length _ _ _ _ h⟩

theorem parse92_bounded (cfg : Config) (f : Frame) : Bounded cfg (parse92 f) := by
  apply guarded_bounded
  split_ifs
  · exact parse92Tail_bounded cfg _ _ (Nat.zero_le _)
  · trivial
  · exact parse92Tail_bounded cfg _ _ (digitalSamples_length _ _)

theorem identified_bounded {cfg : Config} {ident : List Byte} (hl : ident.length ≤ cfg.niMax) (h0 : 0x00#8 ∉ ident)
    (p after : List Byte) : Bounded cfg (identified p ident after) := by
  unfold identified
  split
  · trivial
  · split_ifs
    · split
      · trivial
      · exact ⟨hl, h0⟩
    · trivial

theorem parse95_bounded (cfg : Config) (f : Frame) : Bounded cfg (parse95 cfg f) := by
  obtain ⟨hle, h0⟩ := nodeIdLength_le cfg.niMax (f.payload.drop 22)
  rw [parse95_eq_identified]
  exact guarded_bounded (identified_bounded ((List.length_take_le _ _).trans hle) h0 _ _) _ _ _

theorem parseMux_bounded (cfg : Config) (f : Frame) : Bounded cfg (parseMux cfg f) := by
  unfold parseMux
  split
  · trivial
  · split_ifs
    · exact guarded_bounded (body := .modemStatus _) trivial _ _ _
    · exact guarded_bounded (body := .extTxStatus _) trivial _ _ _
    · exact guarded_bounded (body := .rxPacket _ _) trivial _ _ _
    · exact parse92_bounded cfg f
    · exact parse95_bounded cfg f
    · exact guarded_bounded (body := .ratResponse _) trivial _ _ _
    · trivial
    · trivial

/-- Settles O54: every result of the multiplexer is within the bounds. -/
theorem parserLoopsAreBounded : Obligations.ParserLoopsAreBounded := by
  intro s t f h
  obtain rfl := answer_next.1 h
  have hb := parseMux_bounded s.cfg f
  refine ⟨fun p hp => ?_, fun p hp => ?_⟩ <;> rwa [Value.result.inj hp] at hb

end Sys2Proof.Machine
end

section
/-!
The encoders (43_encoders_address.md, R155 to R158): the model's wire bytes in the statements' own terms, and by length what
`encodeAnswer` answers.
-/
open Sys2Proof.Statements

namespace Sys2Proof.Machine

/-! ### The wire form of a payload -/

theorem wireBytes_eq_wireSpec (p : List Byte) (m : Bool) : wireBytes p m = wireSpec p m := by
  simp [wireSpec_eq, wireBytes, logicalBody, escapeAll_cons]

/-- The wire form, split where `FrameTypeOffset` points. -/
theorem wireSpec_split (p : List Byte) (m : Bool) :
    wireSpec p m = sofByte :: (escapeByte m (hiByte p.length) ++ escapeByte m (loByte p.length)) ++
      escapeAll m (p ++ [checksumSpec p]) := by
  simp [← wireBytes_eq_wireSpec, wireBytes, escapeAll, checksumSpec_eq]

theorem wireSpec_tail (p : List Byte) (m : Bool) :
    (wireSpec p m).tail = escapeAll m (hiByte p.length :: loByte p.length :: (p ++ [checksumSpec p])) := by
  simp [wireSpec_split, escapeAll_cons]

theorem unescape_wireSpec_tail (p : List Byte) (m : Bool) :
    unescape (wireSpec p m).tail m = (hiByte p.length :: loByte p.length :: (p ++ [checksumSpec p]), false) := by
  rw [wireSpec_tail, unescape_escapeAll]

/-- From the offset on, the payload and its checksum stand on the wire. -/
theorem frameTypeOffset_wireSpec (p : List Byte) (m : Bool) :
    ∃ o, frameTypeOffset (wireSpec p m) m = some o ∧
      unescape ((wireSpec p m).drop o) m = (p ++ [checksumSpec p], false) := by
  rw [wireSpec_split]
  obtain ⟨o, ho, hrest⟩ := frameTypeOffset_wire (hiByte p.length) (loByte p.length) (escapeAll m (p ++ [checksumSpec p])) m
  exact ⟨o, ho, by rw [hrest, unescape_escapeAll]⟩

/-! ### EncodeFrame (R155, R158) -/

section
variable {p : List Byte}

/-- The self-check never fails, so a length that can be declared is always answered (R155, R178). -/
theorem encodeAnswer_declarable (h1 : 1 ≤ p.length) (hmax : p.length ≤ 65535) (m : Bool) (s : State) :
    encodeAnswer p m s = returns s (.bytes (wireSpec p m)) := by
  have hlen : ¬ (p.length = 0 ∨ 65535 < p.length) := by omega
  rw [encodeAnswer, if_neg hlen, if_pos (checksumValid_wireBytes p m), wireBytes_eq_wireSpec]
  rfl

theorem encodeAnswer_undeclarable (h : p.length = 0 ∨ 65535 < p.length) (m : Bool) (s : State) :
    encodeAnswer p m s = .refused .payloadLength :=
  if_pos h

theorem eq_wireSpec_of_encodeFrame {wire : List Byte} {m : Bool} {s t : State} (h : exec (.encodeFrame p m) s = .next t)
    (hret : t.ret = .bytes wire) : wire = wireSpec p m := by
  by_cases hlen : p.length = 0 ∨ 65535 < p.length
  · cases h.symm.trans (encodeAnswer_undeclarable hlen m s)
  · cases h.symm.trans (encodeAnswer_declarable (by omega) (by omega) m s)
    exact (Value.bytes.inj hret).symm

end

/-- Settles O55: by whether the length can be declared. -/
theorem encodeFrameEmitsTheWire : Obligations.EncodeFrameEmitsTheWire :=
  fun s _ m => ⟨fun h1 hmax => encodeAnswer_declarable h1 hmax m s, fun h => encodeAnswer_undeclarable h m s⟩

/-- Settles O56: the answer is the wire form, whose bytes unescape to what was escaped. -/
theorem encodedFrameIsConsistent : Obligations.EncodedFrameIsConsistent := by
  intro s t p wire m h hret
  obtain rfl := eq_wireSpec_of_encodeFrame h hret
  have hvalid : checksumValid (wireSpec p m) m = some true := wireBytes_eq_wireSpec p m ▸ checksumValid_wireBytes p m
  obtain ⟨o, ho, hrest⟩ := frameTypeOffset_wireSpec p m
  exact ⟨rawAnswer_some hvalid .bool s, exec_unescape_eq_returns.2 (unescape_wireSpec_tail p m),
    o, rawAnswer_some ho .nat s, exec_unescape_eq_returns.2 hrest⟩

/-! ### The builders (R156, R157) -/

theorem transmitPayload_length (cfg : Config) (a : Address) (fid : Byte) (d : List Byte) :
    (transmitPayload cfg a fid d).length = 14 + d.length :=
  Nat.add_comm d.length 14

theorem remoteATPayload_length (cfg : Config) (a : Address) (fid c0 c1 : Byte) (d : List Byte) :
    (remoteATPayload cfg a fid c0 c1 d).length = 15 + d.length :=
  Nat.add_comm d.length 15

/-- Settles O57: each builder is `encodeAnswer` of its payload, whose fixed part has 14 or 15 bytes. -/
theorem buildersEncodeTheirPayload : Obligations.BuildersEncodeTheirPayload := by
  intro s a fid c0 c1 d m
  have htx := transmitPayload_length s.cfg a fid d
  have hrat := remoteATPayload_length s.cfg a fid c0 c1 d
  exact ⟨fun h => encodeAnswer_declarable (by omega) (by omega) m s,
    fun h => encodeAnswer_declarable (by omega) (by omega) m s,
    fun h => encodeAnswer_undeclarable (by omega) m s, fun h => encodeAnswer_undeclarable (by omega) m s⟩

end Sys2Proof.Machine
end

section
/-!
The address functions (43_encoders_address.md, R151 to R153): a hex digit's value by the table, the bytes of a run of hex digits
pair by pair, and each constructor by when it has an address.
-/
open Sys2Proof.Statements

namespace Sys2Proof.Machine

/-! ### AddressFromBytes (R151) -/

theorem addressAnswer_some {o : Option Address} {a : Address} (h : o = some a) (s : State) :
    addressAnswer o s = returns s (.address a) := by
  rw [h]
  rfl

theorem addressAnswer_none {o : Option Address} (h : o = none) (s : State) :
    addressAnswer o s = returns s (.raised .invalidAddress) := by
  rw [h]
  rfl

theorem addressFromBytes_eq_some_iff {l : List Byte} {a : Address} : addressFromBytes l = some a ↔ l = a.toBytes := by
  refine ⟨fun h => ?_, fun h => h ▸ rfl⟩
  unfold addressFromBytes at h
  split at h
  · cases h
    rfl
  · cases h

theorem exists_toBytes_iff {l : List Byte} : (∃ a : Address, l = a.toBytes) ↔ l.length = 8 := by
  constructor
  · rintro ⟨a, rfl⟩
    rfl
  · intro h
    match l, h with
    | [b0, b1, b2, b3, b4, b5, b6, b7], _ => exact ⟨⟨b0, b1, b2, b3, b4, b5, b6, b7⟩, rfl⟩

/-- Settles O58: 8 bytes are exactly the bytes of an address. -/
theorem addressFromBytesNeedsEight : Obligations.AddressFromBytesNeedsEight := by
  intro s l
  refine ⟨fun h => ?_, fun h => addressAnswer_none (Option.eq_none_iff_forall_ne_some.2 fun a ha => h ?_) s⟩
  · obtain ⟨a, ha⟩ := exists_toBytes_iff.2 h
    exact ⟨a, ha.symm, addressAnswer_some (addressFromBytes_eq_some_iff.2 ha) s⟩
  · exact exists_toBytes_iff.1 ⟨a, addressFromBytes_eq_some_iff.1 ha⟩

/-! ### Hex digits -/

theorem hexValue_lt {c : Char} {v : Nat} (h : hexValue c = some v) : c.toNat < 103 := by
  unfold hexValue at h
  split_ifs at h <;> omega

/-- The value ranges of the model are the table of the rule. -/
theorem hexValue_eq_some_iff {c : Char} {v : Nat} : hexValue c = some v ↔ (c, v) ∈ hexTable := by
  constructor
  · intro h
    have htable : ∀ n < 103, ∀ v ∈ hexValue (Char.ofNat n), (Char.ofNat n, v) ∈ hexTable := by decide
    have hc := htable c.toNat (hexValue_lt h)
    rw [Char.ofNat_toNat] at hc
    exact hc v h
  · intro h
    have htable : ∀ e ∈ hexTable, hexValue e.1 = some e.2 := by decide
    exact htable (c, v) h

theorem byteOfHex_eq_some_iff {hc lc : Char} {b : Byte} :
    byteOfHex hc lc = some b ↔ ∃ h l, (hc, h) ∈ hexTable ∧ (lc, l) ∈ hexTable ∧ BitVec.ofNat 8 (h * 16 + l) = b := by
  simp only [← hexValue_eq_some_iff, byteOfHex]
  cases hexValue hc <;> cases hexValue lc <;> simp

theorem bytesOfHex_cons_cons_eq_some_iff {hc lc : Char} {rest : Text} {bs : List Byte} :
    bytesOfHex (hc :: lc :: rest) = some bs ↔
      ∃ b bs', byteOfHex hc lc = some b ∧ bytesOfHex rest = some bs' ∧ b :: bs' = bs := by
  rw [bytesOfHex]
  cases byteOfHex hc lc <;> cases bytesOfHex rest <;> simp

theorem exists_byteOfHex_iff {hc lc : Char} :
    (∃ b, byteOfHex hc lc = some b) ↔ (∃ v, (hc, v) ∈ hexTable) ∧ ∃ v, (lc, v) ∈ hexTable := by
  simp only [byteOfHex_eq_some_iff]
  constructor
  · rintro ⟨_, h, l, hh, hl, _⟩
    exact ⟨⟨h, hh⟩, l, hl⟩
  · rintro ⟨⟨h, hh⟩, l, hl⟩
    exact ⟨_, h, l, hh, hl, rfl⟩

theorem exists_bytesOfHex_cons_cons_iff {n : Nat} {hc lc : Char} {rest : Text} :
    (∃ bs, bytesOfHex (hc :: lc :: rest) = some bs ∧ bs.length = n + 1) ↔
      (∃ b, byteOfHex hc lc = some b) ∧ ∃ bs, bytesOfHex rest = some bs ∧ bs.length = n := by
  simp only [bytesOfHex_cons_cons_eq_some_iff]
  constructor
  · rintro ⟨_, ⟨b, bs, hb, hbs, rfl⟩, hlen⟩
    exact ⟨⟨b, hb⟩, bs, hbs, Nat.succ.inj hlen⟩
  · rintro ⟨⟨b, hb⟩, bs, hbs, rfl⟩
    exact ⟨b :: bs, ⟨b, bs, hb, hbs, rfl⟩, rfl⟩

/-- A text is read as `n` bytes exactly when it has `2 * n` characters, all of them hex digits. -/
theorem exists_bytesOfHex_iff {n : Nat} {ds : Text} :
    (∃ bs, bytesOfHex ds = some bs ∧ bs.length = n) ↔ ds.length = 2 * n ∧ ∀ c ∈ ds, ∃ v, (c, v) ∈ hexTable := by
  induction ds using List.twoStepInduction generalizing n with
  | nil => simp [bytesOfHex, eq_comm]
  | singleton c => simp [bytesOfHex]; omega
  | cons_cons hc lc rest ih _ =>
    cases n with
    | zero => simp [bytesOfHex_cons_cons_eq_some_iff]
    | succ n =>
      rw [exists_bytesOfHex_cons_cons_iff, exists_byteOfHex_iff, ih]
      simp only [List.length_cons, List.forall_mem_cons, Nat.mul_succ, Nat.add_right_cancel_iff]
      rw [and_left_comm, and_assoc]

/-- Byte `k` is the one of digits `2 * k` and `2 * k + 1`. -/
theorem getElem?_of_bytesOfHex {ds : Text} {bs : List Byte} (h : bytesOfHex ds = some bs) {k : Nat} {hc lc : Char}
    (hhc : ds[2 * k]? = some hc) (hlc : ds[2 * k + 1]? = some lc) : bs[k]? = byteOfHex hc lc := by
  induction ds using List.twoStepInduction generalizing k bs with
  | nil => simp at hhc
  | singleton c => simp [bytesOfHex] at h
  | cons_cons c c' rest ih _ =>
    obtain ⟨b, bs', hb, hbs', rfl⟩ := bytesOfHex_cons_cons_eq_some_iff.1 h
    cases k with
    | zero =>
      cases hhc
      cases hlc
      exact hb.symm
    | succ k => exact ih hbs' hhc hlc

/-! ### AddressFromString (R152) -/

theorem addressFromString_eq_some_iff {t : Text} {a : Address} :
    addressFromString t = some a ↔ ∃ digits, t = '0' :: 'x' :: digits ∧ bytesOfHex digits = some a.toBytes := by
  unfold addressFromString
  split
  · simp [Option.bind_eq_some_iff, addressFromBytes_eq_some_iff]
  next hprefix => simpa using fun digits ht => absurd ht (hprefix digits)

/-- The 16 digits are those of the 8 bytes of an address. -/
theorem exists_bytesOfHex_toBytes_iff {ds : Text} :
    (∃ a : Address, bytesOfHex ds = some a.toBytes) ↔ ds.length = 16 ∧ ∀ c ∈ ds, ∃ v, (c, v) ∈ hexTable := by
  refine Iff.trans ?_ (exists_bytesOfHex_iff (n := 8))
  constructor
  · rintro ⟨a, ha⟩
    exact ⟨_, ha, rfl⟩
  · rintro ⟨bs, hbs, hlen⟩
    obtain ⟨a, rfl⟩ := exists_toBytes_iff.2 hlen
    exact ⟨a, hbs⟩

theorem exists_addressFromString_iff {t : Text} :
    (∃ a, addressFromString t = some a) ↔
      ∃ digits, t = '0' :: 'x' :: digits ∧ digits.length = 16 ∧ ∀ c ∈ digits, ∃ v, (c, v) ∈ hexTable := by
  simp only [addressFromString_eq_some_iff]
  rw [exists_comm]
  simp only [exists_and_left, exists_bytesOfHex_toBytes_iff]

/-- Settles O59: the texts of the rule are exactly those with an address, and its bytes are read pair by pair. -/
theorem addressFromStringReadsHex : Obligations.AddressFromStringReadsHex := by
  intro s t
  refine ⟨fun digits ht hlen hhex => ?_, fun h => ?_⟩
  · obtain ⟨a, ha⟩ := exists_addressFromString_iff.2 ⟨digits, ht, hlen, hhex⟩
    refine ⟨a, addressAnswer_some ha s, fun k h l hc lc hhc hlc hh hl => ?_⟩
    obtain ⟨digits', ht', hbytes⟩ := addressFromString_eq_some_iff.1 ha
    cases ht.symm.trans ht'
    rw [getElem?_of_bytesOfHex hbytes hhc hlc]
    exact byteOfHex_eq_some_iff.2 ⟨h, l, hh, hl, rfl⟩
  · exact addressAnswer_none (Option.eq_none_iff_forall_ne_some.2 fun a ha => h (exists_addressFromString_iff.1 ⟨a, ha⟩)) s

/-! ### AddressToString (R153) -/

theorem hexDigit_mem_hexTable {n : Nat} (h : n < 16) : (hexDigit n, n) ∈ hexTable := by
  revert n
  decide

theorem hexDigit_upperCase {n : Nat} (h : n < 16) : hexDigit n ∈
    ['0', '1', '2', '3', '4', '5', '6', '7', '8', '9', 'A', 'B', 'C', 'D', 'E', 'F'] := by
  revert n
  decide

/-- The two digits of byte `k` stand at `2 * k` and `2 * k + 1`. -/
theorem getElem?_flatMap_hexByte {l : List Byte} {k : Nat} {b : Byte} (h : l[k]? = some b) :
    (l.flatMap hexByte)[2 * k]? = some (hexDigit (b.toNat / 16)) ∧
      (l.flatMap hexByte)[2 * k + 1]? = some (hexDigit (b.toNat % 16)) := by
  induction l generalizing k with
  | nil => simp at h
  | cons c l ih =>
    cases k with
    | zero =>
      cases h
      exact ⟨rfl, rfl⟩
    | succ k => exact ih h

theorem addressFromString_addressToString (a : Address) : addressFromString (addressToString a) = some a :=
  addressFromString_eq_some_iff.2 ⟨_, rfl, bytesOfHex_hexByte a.toBytes⟩

/-- Settles O60: the digits of each byte, and the read back of the whole text. -/
theorem addressTextReadsBack : Obligations.AddressTextReadsBack := by
  intro s a
  have hnibbles (b : Byte) : b.toNat / 16 < 16 ∧ b.toNat % 16 < 16 := by omega
  refine ⟨addressToString a, rfl, rfl, rfl, fun k b hb => ?_, fun c hc => ?_,
    addressAnswer_some (addressFromString_addressToString a) s⟩
  · obtain ⟨hhi, hlo⟩ := getElem?_flatMap_hexByte hb
    exact ⟨_, _, hhi, hlo, hexDigit_mem_hexTable (hnibbles b).1, hexDigit_mem_hexTable (hnibbles b).2⟩
  · obtain ⟨b, -, hc⟩ := List.mem_flatMap.1 (show c ∈ a.toBytes.flatMap hexByte from hc)
    simp only [hexByte, List.mem_cons, List.not_mem_nil, or_false] at hc
    obtain rfl | rfl := hc
    · exact hexDigit_upperCase (hnibbles b).1
    · exact hexDigit_upperCase (hnibbles b).2

end Sys2Proof.Machine
end
